-- ==== Sys2Proof/Word.lean ====
section
/-! DEFINITION. The machine's word and its register numbers (`00_scope.md` R9, R12). -/

namespace Sys2Proof

/-- One 8-bit word: a memory cell, a register, an immediate or an address. All are unsigned (`00_scope.md` R12). -/
abbrev Byte := BitVec 8

/-- The number of a general register, 0 to 7 (`10_state.md` R30). -/
abbrev Reg := Fin 8

end Sys2Proof
end

