-- ==== Sys2Proof/Config.lean ====
section
/-! DEFINITION. What the spec fixes for the core, and its one open parameter (`00_scope.md` R9, R10). -/

namespace Sys2Proof.Config

/-- The number of memory cells (`00_scope.md` R9, `20_memory.md` R60). -/
def memSize : Nat := 256

/-- The index of the stack pointer among the registers (`00_scope.md` R9, `10_state.md` R32). -/
def spIndex : Reg := 7

/-- The stack pointer's initial value (`00_scope.md` R9, `10_state.md` R33). -/
def spInit : Byte := 0xF4

/-- The program counter at reset (`10_state.md` R34). -/
def pcReset : Byte := 0

/-- The address the loader puts the first program byte at (`00_scope.md` R9). -/
def loadBase : Nat := 0

/-- The largest loadable program (`00_scope.md` R10, `70_reset_and_hazards.md` R226). -/
def maxProgram : Nat := spInit.toNat

/-- The longest instruction, in words (`30_encoding.md` R80). -/
def maxInstrWords : Nat := 3

/-- How many cells a trace shows, `TRACE_CELLS`. The spec leaves it OPEN (`00_scope.md` R10, decision D25),
so it has no value here. DESIGN CHOICE, safe: log entry 8. -/
opaque traceCells : Nat

end Sys2Proof.Config
end

