-- ==== Sys2Proof/Syntax.lean ====
section
/-! DEFINITION. The instruction set as data: the 19 instructions of `30_encoding.md` R84, one constructor a row of
the opcode table, in the table's order, with their formats (R86). -/

namespace Sys2Proof

/-- The 19 mnemonics of `30_encoding.md` R84: the "finite tagged enumeration" of R87. -/
inductive Mnemonic where
  | ldi | prn | add | mul | and | or | xor | not | shl | shr
  | push | pop | call | ret | cmp | jmp | jeq | jne | hlt
  deriving DecidableEq, Repr

/-- The four formats of `30_encoding.md` R86. -/
inductive Format where
  /-- no operand -/
  | z
  /-- one register -/
  | r
  /-- two registers -/
  | rr
  /-- a register and an immediate -/
  | ri
  deriving DecidableEq, Repr

/-- One instruction. An operand is the operand BYTE as it stands in memory (`30_encoding.md` R83): a byte the format
names as a register index may be 8 or more, and the instruction then raises `BadRegister` (R93). -/
inductive Instr where
  | ldi (a imm : Byte)
  | prn (a : Byte)
  | add (a b : Byte)
  | mul (a b : Byte)
  | and (a b : Byte)
  | or (a b : Byte)
  | xor (a b : Byte)
  | not (a : Byte)
  | shl (a b : Byte)
  | shr (a b : Byte)
  | push (a : Byte)
  | pop (a : Byte)
  | call (a : Byte)
  | ret
  | cmp (a b : Byte)
  | jmp (a : Byte)
  | jeq (a : Byte)
  | jne (a : Byte)
  | hlt
  deriving DecidableEq, Repr

/-- Every mnemonic, in the order of `30_encoding.md` R84. -/
def Mnemonic.all : List Mnemonic :=
  [.ldi, .prn, .add, .mul, .and, .or, .xor, .not, .shl, .shr, .push, .pop, .call, .ret, .cmp, .jmp, .jeq, .jne, .hlt]

/-- The format column of `30_encoding.md` R84. -/
def Mnemonic.format : Mnemonic → Format
  | .ldi => .ri
  | .prn => .r
  | .add => .rr
  | .mul => .rr
  | .and => .rr
  | .or => .rr
  | .xor => .rr
  | .not => .r
  | .shl => .rr
  | .shr => .rr
  | .push => .r
  | .pop => .r
  | .call => .r
  | .ret => .z
  | .cmp => .rr
  | .jmp => .r
  | .jeq => .r
  | .jne => .r
  | .hlt => .z

/-- How many operand bytes a format has (`30_encoding.md` R86). -/
def Format.operandCount : Format → Nat
  | .z => 0
  | .r => 1
  | .rr => 2
  | .ri => 2

/-- How many operand bytes the instructions of a mnemonic have. -/
def Mnemonic.operandCount (m : Mnemonic) : Nat := m.format.operandCount

/-- The mnemonic an instruction belongs to. -/
def Instr.mnemonic : Instr → Mnemonic
  | .ldi _ _ => .ldi
  | .prn _ => .prn
  | .add _ _ => .add
  | .mul _ _ => .mul
  | .and _ _ => .and
  | .or _ _ => .or
  | .xor _ _ => .xor
  | .not _ => .not
  | .shl _ _ => .shl
  | .shr _ _ => .shr
  | .push _ => .push
  | .pop _ => .pop
  | .call _ => .call
  | .ret => .ret
  | .cmp _ _ => .cmp
  | .jmp _ => .jmp
  | .jeq _ => .jeq
  | .jne _ => .jne
  | .hlt => .hlt

/-- The operand bytes, in the order they follow the opcode (`30_encoding.md` R86). -/
def Instr.operands : Instr → List Byte
  | .ldi a imm => [a, imm]
  | .prn a => [a]
  | .add a b => [a, b]
  | .mul a b => [a, b]
  | .and a b => [a, b]
  | .or a b => [a, b]
  | .xor a b => [a, b]
  | .not a => [a]
  | .shl a b => [a, b]
  | .shr a b => [a, b]
  | .push a => [a]
  | .pop a => [a]
  | .call a => [a]
  | .ret => []
  | .cmp a b => [a, b]
  | .jmp a => [a]
  | .jeq a => [a]
  | .jne a => [a]
  | .hlt => []

/-- The operand bytes the format names as register indices, `regA` first. The immediate of LDI is not one
(`30_encoding.md` R93). -/
def Instr.registerOperands : Instr → List Byte
  | .ldi a _ => [a]
  | .prn a => [a]
  | .add a b => [a, b]
  | .mul a b => [a, b]
  | .and a b => [a, b]
  | .or a b => [a, b]
  | .xor a b => [a, b]
  | .not a => [a]
  | .shl a b => [a, b]
  | .shr a b => [a, b]
  | .push a => [a]
  | .pop a => [a]
  | .call a => [a]
  | .ret => []
  | .cmp a b => [a, b]
  | .jmp a => [a]
  | .jeq a => [a]
  | .jne a => [a]
  | .hlt => []

/-- The instruction's length in words, `len = N + 1` (`30_encoding.md` R81). -/
def Instr.length (i : Instr) : Nat := i.mnemonic.operandCount + 1

/-- An assignment of opcode bytes to mnemonics, the `OPCODE_MAP` that `30_encoding.md` R85 lets a model take as a
parameter. -/
abbrev OpcodeMap := Mnemonic → Byte

end Sys2Proof
end

