-- ==== Sys2Proof/WellFormed.lean ====
section
/-! DEFINITION. Which instructions are well-formed (`30_encoding.md` R93) and which opcode maps the spec allows (R85). -/

namespace Sys2Proof

/-- A register operand byte names a register: it is 0..7 (`30_encoding.md` R93). -/
def isRegister (b : Byte) : Bool := decide (b.toNat < 8)

/-- An instruction is well-formed when every operand byte its format names as a register index is 0..7. An ill-formed
one still decodes and runs: it raises `BadRegister` (`30_encoding.md` R93). -/
def Instr.wf (i : Instr) : Bool := i.registerOperands.all isRegister

/-- The bits `opcode[7:6]`, the number of operand bytes (`30_encoding.md` R81). -/
def opcodeCount (opc : Byte) : Nat := (opc.extractLsb 7 6).toNat

/-- The constraints 1 and 2 that the source puts on any opcode map (`30_encoding.md` R85): two mnemonics never share
a byte, and the top two bits are the operand count. -/
structure OpcodeMap.Valid (M : OpcodeMap) : Prop where
  injective : ∀ m m' : Mnemonic, M m = M m' → m = m'
  topBits : ∀ m : Mnemonic, opcodeCount (M m) = m.operandCount

end Sys2Proof
end

