-- ==== Sys2Proof/Decode.lean ====
section
/-! DEFINITION. The opcode map, the decoder (total on any bytes, refusing by name) and the encoder
(`30_encoding.md` R80 to R89). -/

namespace Sys2Proof

/-- The opcode bytes of `30_encoding.md` R84. The spec takes them from general knowledge (decision D1).
UNVERIFIED, unsafe: log entry 1. -/
def opcodeMap : OpcodeMap
  | .ldi => 0b10000010
  | .prn => 0b01000111
  | .add => 0b10100000
  | .mul => 0b10100010
  | .and => 0b10101000
  | .or => 0b10101010
  | .xor => 0b10101011
  | .not => 0b01101001
  | .shl => 0b10101100
  | .shr => 0b10101101
  | .push => 0b01000101
  | .pop => 0b01000110
  | .call => 0b01010000
  | .ret => 0b00010001
  | .cmp => 0b10100111
  | .jmp => 0b01010100
  | .jeq => 0b01010101
  | .jne => 0b01010110
  | .hlt => 0b00000001

/-- Why a list of words holds no instruction. -/
inductive DecodeError where
  /-- The first word is no opcode (`30_encoding.md` R88). -/
  | unknownOpcode (opc : Byte)
  /-- Word `k` of the instruction (0 is the opcode) is not there: the list ends before it. In a fetch this is the
  address `pc + k` above 255 (`30_encoding.md` R92). -/
  | missingWord (k : Nat)
  deriving DecidableEq, Repr

/-- What the decoder answers: an instruction and the words after it, or a refusal by name. -/
inductive Decoded where
  | ok (i : Instr) (rest : List Byte)
  | refused (e : DecodeError)
  deriving DecidableEq, Repr

/-- The mnemonic whose opcode is exactly this byte: one comparison of the full 8 bits (`30_encoding.md` R87). -/
def OpcodeMap.mnemonic? (M : OpcodeMap) (opc : Byte) : Option Mnemonic :=
  Mnemonic.all.find? fun m => M m == opc

/-- Take `n` operand words, the first of them being word `k` of the instruction; the first word that is missing is
named (`30_encoding.md` R92, `60_exceptions.md` R198: operand 1, then operand 2). -/
def takeOperands (k : Nat) : Nat → List Byte → Except DecodeError (List Byte × List Byte)
  | 0, ws => .ok ([], ws)
  | _ + 1, [] => .error (.missingWord k)
  | n + 1, w :: ws =>
    match takeOperands (k + 1) n ws with
    | .ok (ops, rest) => .ok (w :: ops, rest)
    | .error e => .error e

/-- An instruction without operands. -/
def assembleZ (i : Instr) : List Byte → Option Instr
  | [] => some i
  | _ :: _ => none

/-- An instruction with one operand byte. -/
def assembleOne (mk : Byte → Instr) : List Byte → Option Instr
  | [a] => some (mk a)
  | [] => none
  | _ :: _ :: _ => none

/-- An instruction with two operand bytes. -/
def assembleTwo (mk : Byte → Byte → Instr) : List Byte → Option Instr
  | [a, b] => some (mk a b)
  | [] => none
  | [_] => none
  | _ :: _ :: _ :: _ => none

/-- The instruction of a mnemonic with these operand bytes, in the order of `30_encoding.md` R86. -/
def Mnemonic.assemble : Mnemonic → List Byte → Option Instr
  | .ldi => assembleTwo Instr.ldi
  | .prn => assembleOne Instr.prn
  | .add => assembleTwo Instr.add
  | .mul => assembleTwo Instr.mul
  | .and => assembleTwo Instr.and
  | .or => assembleTwo Instr.or
  | .xor => assembleTwo Instr.xor
  | .not => assembleOne Instr.not
  | .shl => assembleTwo Instr.shl
  | .shr => assembleTwo Instr.shr
  | .push => assembleOne Instr.push
  | .pop => assembleOne Instr.pop
  | .call => assembleOne Instr.call
  | .ret => assembleZ Instr.ret
  | .cmp => assembleTwo Instr.cmp
  | .jmp => assembleOne Instr.jmp
  | .jeq => assembleOne Instr.jeq
  | .jne => assembleOne Instr.jne
  | .hlt => assembleZ Instr.hlt

/-- Decode the words that begin at an instruction, under an opcode map: match the opcode, take `opcode[7:6]` operand
words, build the instruction (`30_encoding.md` R81, R87, R92, R94). Under a map that meets R85 the operand count
always fits the mnemonic, so the inner `none` is never reached. -/
def decodeWith (M : OpcodeMap) : List Byte → Decoded
  | [] => .refused (.missingWord 0)
  | opc :: ws =>
    match M.mnemonic? opc with
    | none => .refused (.unknownOpcode opc)
    | some m =>
      match takeOperands 1 (opcodeCount opc) ws with
      | .error e => .refused e
      | .ok (ops, rest) =>
        match m.assemble ops with
        | some i => .ok i rest
        | none => .refused (.unknownOpcode opc)

/-- The core's decoder: `decodeWith` at the map of `30_encoding.md` R84. -/
def decode (ws : List Byte) : Decoded := decodeWith opcodeMap ws

/-- The words of an instruction under an opcode map: the opcode, then the operand bytes at increasing addresses
(`20_memory.md` R63, `30_encoding.md` R86). -/
def encodeWith (M : OpcodeMap) (i : Instr) : List Byte := M i.mnemonic :: i.operands

/-- The words of an instruction under the map of `30_encoding.md` R84. -/
def encode (i : Instr) : List Byte := encodeWith opcodeMap i

/-- The words of an instruction given as one number, numbered as the opcode table numbers its bits: bit 0 is the
least significant bit of the first word, later words count on from it. Bits at and above `nbits` are 0, up to the
longest instruction. -/
def tableWords (nbits w : Nat) : List Byte :=
  (List.range Config.maxInstrWords).map fun k => BitVec.ofNat 8 ((w % 2 ^ nbits) >>> (8 * k))

/-- What `decode` reads from an instruction whose bits, numbered as the opcode table numbers them, are `w`. -/
def decodeTableWord (nbits w : Nat) : Option Instr :=
  match decode (tableWords nbits w) with
  | .ok i _ => some i
  | .refused _ => none

end Sys2Proof
end

