-- ==== Sys2Proof/Machine/State.lean ====
section
/-! DEFINITION. The machine's state (`10_state.md` R46), why a step can stop, and the state after reset. -/

namespace Sys2Proof.Machine

/-- The run state (`10_state.md` R41). HALTED and FAULTED are terminal. -/
inductive RunState where
  | running
  | halted
  | faulted
  deriving DecidableEq, Repr

/-- The causes of a fatal condition (`60_exceptions.md` R191). -/
inductive Cause where
  /-- the opcode byte is not in the table (R193) -/
  | unknownOpcode
  /-- a push would land at or below the program end marker (R194) -/
  | stackOverflow
  /-- a register operand byte is 8 or more (R196) -/
  | badRegister
  /-- an address above 255 would be formed (R197) -/
  | addressOutOfRange
  deriving DecidableEq, Repr

/-- The fault record (`10_state.md` R42): the cause, the address of the faulting instruction, the opcode byte there,
and one cause-specific value. That value is a byte or an address of 256..258, so it is a plain number (DESIGN CHOICE,
safe: log entry 7). -/
structure FaultRecord where
  cause : Cause
  pc : Byte
  opcode : Byte
  info : Nat
  deriving DecidableEq, Repr

/-- The three condition flags Less, Greater, Equal (`10_state.md` R36). -/
structure Flags where
  l : Bool
  g : Bool
  e : Bool
  deriving DecidableEq, Repr

/-- Memory as the list of the cells that differ from `unlistedByte`, by rising address (`20_memory.md` R60). -/
abbrev Memory := List Host.Cell

/-- The eight general registers; index 7 is the stack pointer (`10_state.md` R30, R32). -/
abbrev Registers := Vector Byte 8

/-- The whole architectural state (`10_state.md` R46). -/
structure State where
  /-- the 256 memory cells (`20_memory.md` R60) -/
  mem : Memory
  /-- `x[0]` to `x[7]` (`10_state.md` R30) -/
  regs : Registers
  /-- the program counter (`10_state.md` R34) -/
  pc : Byte
  /-- L, G and E (`10_state.md` R36) -/
  flags : Flags
  /-- the program end marker (`10_state.md` R40) -/
  pem : Byte
  /-- the run state (`10_state.md` R41) -/
  run : RunState
  /-- the fault record, empty until a fault (`10_state.md` R42) -/
  fault : Option FaultRecord
  /-- the emitted values, oldest first (`10_state.md` R43) -/
  out : List Byte
  deriving DecidableEq, Repr

/-- Why a step answers no next state. A fatal condition of the spec is not among these: it is a next state whose run
state is FAULTED (`60_exceptions.md` R195). -/
inductive Fault where
  /-- Raised by `step` alone, when the core has halted by HLT: it "takes no further step" (`44_halt.md` R180,
  `10_state.md` R41). Safe: the machine is stopped. DESIGN CHOICE, log entry 2. -/
  | coreHalted
  /-- Raised by `step` alone, when the core has faulted: it "takes no further step" (`60_exceptions.md` R195,
  `10_state.md` R41). Safe: the machine is stopped. DESIGN CHOICE, log entry 2. -/
  | coreFaulted
  deriving DecidableEq, Repr

/-- Why an instruction has no meaning. No instruction of this model is refused. -/
inductive Refusal where
  /-- Raised by an arm of `exec` for an instruction that has no meaning yet; no arm does. Safe. -/
  | notModelled (mnemonic : String)
  deriving DecidableEq, Repr

/-- The machine right after reset: every value of `10_state.md` R46 for a load of the empty program, N = 0 (so
PEM = 0, memory all 0, RUNNING). DEDUCED: log entry 4. The flags are the spec's decision D4: log entry 12. -/
def State.reset : State where
  mem := []
  regs := #v[0, 0, 0, 0, 0, 0, 0, Config.spInit]
  pc := Config.pcReset
  flags := ⟨false, false, false⟩
  pem := 0
  run := .running
  fault := none
  out := []

end Sys2Proof.Machine
end

