-- ==== Sys2Proof/Machine/Ops.lean ====
section
/-! DEFINITION. The named operations over memory, registers, the program counter, the stack and the run state, and
taking a fatal condition (`60_exceptions.md` R195). The spec has no return from one (R200). -/

namespace Sys2Proof.Machine

/-- What an instruction's meaning answers. -/
abbrev Res := Host.Outcome State Fault Refusal

/-! ### Memory -/

/-- What a cell that nothing has written reads as: 0 (`20_memory.md` R68, the spec's decision D3).
UNVERIFIED, unsafe: log entry 11. -/
def unlistedByte : Byte := 0

/-- Read one cell. -/
def Memory.read : Memory → Nat → Byte
  | [], _ => unlistedByte
  | c :: m, a => if c.1 = a then c.2 else Memory.read m a

/-- `n` consecutive cells from `a` upward, in the order of their addresses. -/
def Memory.cellsFrom (m : Memory) (a n : Nat) : List Byte := (List.range n).map fun k => m.read (a + k)

/-- Forget one cell, so that it reads as unlisted. -/
def Memory.erase (m : Memory) (a : Nat) : Memory := m.filter fun c => c.1 ≠ a

/-- Put a cell at its place by address, in a memory that does not list the address. -/
def Memory.insert : Memory → Nat → Byte → Memory
  | [], a, v => [(a, v)]
  | c :: m, a, v => if a < c.1 then (a, v) :: c :: m else c :: Memory.insert m a v

/-- Write one cell, keeping the canonical form: writing what an unlisted cell reads as removes the entry. -/
def Memory.write (m : Memory) (a : Nat) (v : Byte) : Memory :=
  if v = unlistedByte then m.erase a else (m.erase a).insert a v

/-- Write consecutive cells from an address upward. -/
def Memory.writeAll : Memory → Nat → List Byte → Memory
  | m, _, [] => m
  | m, a, v :: vs => Memory.writeAll (m.write a v) (a + 1) vs

/-- The canonical form: addresses strictly rising and below 256 (`20_memory.md` R60), no entry equal to what an
unlisted cell reads as. -/
abbrev Memory.wf (m : Memory) : Prop :=
  m.Pairwise (fun c d => c.1 < d.1) ∧ ∀ c ∈ m, c.1 < Config.memSize ∧ c.2 ≠ unlistedByte

/-- `MemRead(addr, 1)` (`00_scope.md` R14). A byte is always an address of memory. -/
def State.memRead (s : State) (a : Byte) : Byte := s.mem.read a.toNat

/-- `MemWrite(addr, 1, v)` (`00_scope.md` R14). -/
def State.memWrite (s : State) (a v : Byte) : State := { s with mem := s.mem.write a.toNat v }

/-! ### Registers, flags, program counter, output, run state -/

/-- `x[i]` (`00_scope.md` R14). -/
def State.reg (s : State) (r : Reg) : Byte := s.regs[r.val]

/-- `x[i] <- v`. No register is hard-wired (`10_state.md` R30). -/
def State.setReg (s : State) (r : Reg) (v : Byte) : State := { s with regs := s.regs.set r.val v }

/-- `SP`, another name for `x[7]` (`00_scope.md` R14). -/
def State.sp (s : State) : Byte := s.reg Config.spIndex

/-- `SP <- v`. -/
def State.setSp (s : State) (v : Byte) : State := s.setReg Config.spIndex v

/-- `pc <- target` (`00_scope.md` R14). -/
def State.setPc (s : State) (a : Byte) : State := { s with pc := a }

/-- Write all three flags. -/
def State.setFlags (s : State) (f : Flags) : State := { s with flags := f }

/-- `emit(v)`: append to the output sequence (`10_state.md` R43). -/
def State.emit (s : State) (v : Byte) : State := { s with out := s.out ++ [v] }

/-- `halt()`: the run state becomes HALTED (`00_scope.md` R14). -/
def State.halt (s : State) : State := { s with run := .halted }

/-! ### Taking a fatal condition -/

/-- The state after fault entry (`60_exceptions.md` R195): FAULTED, with the cause, the current `pc`, the byte now at
`pc` and the info recorded; everything else keeps its current value. The opcode is read when the fault is raised, as
R195 writes it (DEDUCED: log entry 6). -/
def State.faulted (s : State) (c : Cause) (info : Nat) : State :=
  { s with run := .faulted, fault := some ⟨c, s.pc, s.memRead s.pc, info⟩ }

/-- `raise C(info)` (`60_exceptions.md` R195): a next state. -/
def State.raise (s : State) (c : Cause) (info : Nat) : Res := .next (s.faulted c info)

/-! ### The sequential advance -/

/-- `advance(len)`, then `k` (`30_encoding.md` R97): `pc + len` if it is at most 255, else `AddressOutOfRange` with
what the instruction has done so far kept, and `k` not done. -/
def State.advanceThen (s : State) (len : Nat) (k : State → Res) : Res :=
  if s.pc.toNat + len ≤ 255 then k (s.setPc (BitVec.ofNat 8 (s.pc.toNat + len)))
  else s.raise .addressOutOfRange (s.pc.toNat + len)

/-- `advance(len)` as the last thing an instruction does (`30_encoding.md` R97). -/
def State.advance (s : State) (len : Nat) : Res := s.advanceThen len .next

/-! ### The stack -/

/-- The stack-overflow guard: `SP - 1 <= PEM`, compared as integers (`42_stack.md` R142). -/
def State.stackFull (s : State) : Bool := decide ((s.sp.toNat : Int) - 1 ≤ (s.pem.toNat : Int))

/-- The state after an unguarded push: SP goes down by one, and the value is written there (`42_stack.md` R141). -/
def State.pushed (s : State) (v : Byte) : State := (s.setSp (s.sp - 1)).memWrite (s.sp - 1) v

/-- `push(v)`, then `k` (`42_stack.md` R141): the guard, then the push. On overflow nothing is written. -/
def State.pushThen (s : State) (v : Byte) (k : State → Res) : Res :=
  if s.stackFull then s.raise .stackOverflow s.sp.toNat else k (s.pushed v)

/-- The word a pop reads: the cell at SP (`42_stack.md` R143). -/
def State.top (s : State) : Byte := s.memRead s.sp

/-- SP after a pop, `(SP + 1) mod 256` (`42_stack.md` R143). -/
def State.popped (s : State) : State := s.setSp (s.sp + 1)

/-! ### Placing words -/

/-- The words at `pc`, `pc + 1` and `pc + 2`, as many of them as lie inside memory (`30_encoding.md` R92). -/
def State.fetchWords (s : State) : List Byte :=
  (List.range Config.maxInstrWords).filterMap fun k =>
    if s.pc.toNat + k ≤ 255 then some (s.mem.read (s.pc.toNat + k)) else none

/-- Store words from `pc` upward, as many of them as lie inside memory. -/
def State.placeWords (s : State) (ws : List Byte) : State :=
  { s with mem := s.mem.writeAll s.pc.toNat (ws.take (Config.memSize - s.pc.toNat)) }

end Sys2Proof.Machine
end

