-- ==== Sys2Proof/Machine/Operands.lean ====
section
/-! DEFINITION. The operand forms: a register index byte, checked, and an immediate byte, used as is
(`30_encoding.md` R83, R93). -/

namespace Sys2Proof.Machine

/-- The register an operand byte names, if it is 0..7 (`30_encoding.md` R93). -/
def regIndex? (b : Byte) : Option Reg := if h : b.toNat < 8 then some ⟨b.toNat, h⟩ else none

/-- `reg(k)` (`00_scope.md` R14): the register an operand byte names, else `BadRegister(byte)` with nothing done
(`30_encoding.md` R93). -/
def withReg (b : Byte) (s : State) (k : Reg → Res) : Res :=
  match regIndex? b with
  | some r => k r
  | none => s.raise .badRegister b.toNat

/-- Two register operands, `regA` checked before `regB` (`60_exceptions.md` R198). -/
def withRegs (a b : Byte) (s : State) (k : Reg → Reg → Res) : Res :=
  withReg a s fun ra => withReg b s fun rb => k ra rb

end Sys2Proof.Machine
end

