-- ==== Sys2Proof/Machine/Alu.lean ====
section
/-! DEFINITION. The ALU (`41_alu.md` R120 to R123) and the instructions that use it: ADD, MUL, AND, OR, XOR, NOT,
SHL, SHR (R127 to R135). -/

namespace Sys2Proof.Machine

/-! ### The ALU functions (`41_alu.md` R121) -/

/-- `(p + q) mod 256` -/
def aluAdd (p q : Byte) : Byte := p + q

/-- `(p * q) mod 256` -/
def aluMul (p q : Byte) : Byte := p * q

/-- `p & q` -/
def aluAnd (p q : Byte) : Byte := p &&& q

/-- `p | q` -/
def aluOr (p q : Byte) : Byte := p ||| q

/-- `p ^ q` -/
def aluXor (p q : Byte) : Byte := p ^^^ q

/-- `255 - p` -/
def aluComplement (p : Byte) : Byte := 255 - p

/-- `(p << q) mod 256`, the count being the whole second value: 0 when it is 8 or more (`41_alu.md` R122) -/
def aluShl (p q : Byte) : Byte := p <<< q.toNat

/-- `p >> q`, no sign extension: 0 when the count is 8 or more (`41_alu.md` R122) -/
def aluShr (p q : Byte) : Byte := p >>> q.toNat

/-! ### The shared shape (`41_alu.md` R127) -/

/-- `x[a] <- f(x[a], x[b]); advance(3)`, both inputs read before the write (`41_alu.md` R127). -/
def aluPair (f : Byte → Byte → Byte) (a b : Byte) (s : State) : Res :=
  withRegs a b s fun ra rb => (s.setReg ra (f (s.reg ra) (s.reg rb))).advance 3

/-! ### The meanings -/

/-- ADD (`41_alu.md` R128): the two-register contract (`90_conflicts.md` C1). -/
def execAdd (a b : Byte) (s : State) : Res := aluPair aluAdd a b s

/-- MUL (`41_alu.md` R129). -/
def execMul (a b : Byte) (s : State) : Res := aluPair aluMul a b s

/-- AND (`41_alu.md` R130). -/
def execAnd (a b : Byte) (s : State) : Res := aluPair aluAnd a b s

/-- OR (`41_alu.md` R131). -/
def execOr (a b : Byte) (s : State) : Res := aluPair aluOr a b s

/-- XOR (`41_alu.md` R132). -/
def execXor (a b : Byte) (s : State) : Res := aluPair aluXor a b s

/-- NOT (`41_alu.md` R133). -/
def execNot (a : Byte) (s : State) : Res :=
  withReg a s fun ra => (s.setReg ra (aluComplement (s.reg ra))).advance 2

/-- SHL (`41_alu.md` R134). -/
def execShl (a b : Byte) (s : State) : Res := aluPair aluShl a b s

/-- SHR (`41_alu.md` R135). -/
def execShr (a b : Byte) (s : State) : Res := aluPair aluShr a b s

end Sys2Proof.Machine
end

