-- ==== Sys2Proof/Machine/Flags.lean ====
section
/-! DEFINITION. The one flag computation, CMP's comparator (`43_compare_branch.md` R160), and the flags as a byte
(`10_state.md` R38). -/

namespace Sys2Proof.Machine

/-- The flags CMP writes for two values: equality first, then unsigned less, then greater (`43_compare_branch.md`
R160). -/
def compareFlags (p q : Byte) : Flags :=
  if p = q then { e := true, l := false, g := false }
  else if p.toNat < q.toNat then { e := false, l := true, g := false }
  else { e := false, l := false, g := true }

/-- `FL = 0b00000LGE`, for the debug port only (`10_state.md` R38). -/
def Flags.toByte (f : Flags) : Byte := BitVec.ofNat 8 (4 * f.l.toNat + 2 * f.g.toNat + f.e.toNat)

end Sys2Proof.Machine
end

