-- ==== Sys2Proof/Machine/CompareBranch.lean ====
section
/-! DEFINITION. The meanings of CMP, JMP, JEQ and JNE (`43_compare_branch.md`). -/

namespace Sys2Proof.Machine

/-- CMP (`43_compare_branch.md` R160): all three flags are written. -/
def execCmp (a b : Byte) (s : State) : Res :=
  withRegs a b s fun ra rb => (s.setFlags (compareFlags (s.reg ra) (s.reg rb))).advance 3

/-- JMP (`43_compare_branch.md` R161). -/
def execJmp (a : Byte) (s : State) : Res :=
  withReg a s fun ra => .next (s.setPc (s.reg ra))

/-- A conditional jump: to the register's value when the condition holds, else advance by 2 (`30_encoding.md`
R98). The register byte is checked either way (`30_encoding.md` R93). -/
def jumpIf (c : Bool) (a : Byte) (s : State) : Res :=
  withReg a s fun ra => if c then .next (s.setPc (s.reg ra)) else s.advance 2

/-- JEQ (`43_compare_branch.md` R162): jump if `E = 1`. -/
def execJeq (a : Byte) (s : State) : Res := jumpIf s.flags.e a s

/-- JNE (`43_compare_branch.md` R163): jump if `E = 0`. -/
def execJne (a : Byte) (s : State) : Res := jumpIf (!s.flags.e) a s

end Sys2Proof.Machine
end

