-- ==== Sys2Proof/Machine/Halt.lean ====
section
/-! DEFINITION. The meaning of HLT (`44_halt.md`). -/

namespace Sys2Proof.Machine

/-- HLT (`44_halt.md` R180): `advance(1)`, then `halt()`. At address 255 the advance faults and the core does not
become HALTED. -/
def execHlt (s : State) : Res := s.advanceThen 1 fun t => .next t.halt

end Sys2Proof.Machine
end

