-- ==== Sys2Proof/Machine/LoadOutput.lean ====
section
/-! DEFINITION. The meanings of LDI and PRN (`40_load_output.md`). -/

namespace Sys2Proof.Machine

/-- LDI (`40_load_output.md` R110): `x[a] <- imm; advance(3)`. The immediate is never checked. -/
def execLdi (a imm : Byte) (s : State) : Res :=
  withReg a s fun ra => (s.setReg ra imm).advance 3

/-- PRN (`40_load_output.md` R111): `emit(x[a]); advance(2)`. -/
def execPrn (a : Byte) (s : State) : Res :=
  withReg a s fun ra => (s.emit (s.reg ra)).advance 2

end Sys2Proof.Machine
end

