-- ==== Sys2Proof/Machine/Stack.lean ====
section
/-! DEFINITION. The meanings of PUSH, POP, CALL and RET (`42_stack.md`). -/

namespace Sys2Proof.Machine

/-- PUSH (`42_stack.md` R145): the value is read before the decrement, so `PUSH R7` pushes the old SP. -/
def execPush (a : Byte) (s : State) : Res :=
  withReg a s fun ra => s.pushThen (s.reg ra) fun t => t.advance 2

/-- POP (`42_stack.md` R146): SP goes up before the destination is written, so `POP R7` leaves the popped word in
R7. -/
def execPop (a : Byte) (s : State) : Res :=
  withReg a s fun ra => (s.popped.setReg ra s.top).advance 2

/-- CALL (`42_stack.md` R147): the target is read before the push; the return address must fit in a cell, checked
before the stack. -/
def execCall (a : Byte) (s : State) : Res :=
  withReg a s fun ra =>
    if s.pc.toNat + 2 ≤ 255 then
      s.pushThen (BitVec.ofNat 8 (s.pc.toNat + 2)) fun t => .next (t.setPc (s.reg ra))
    else s.raise .addressOutOfRange (s.pc.toNat + 2)

/-- RET (`42_stack.md` R148): pop into `pc`. -/
def execRet (s : State) : Res := .next (s.popped.setPc s.top)

end Sys2Proof.Machine
end

