-- ==== Sys2Proof/Machine/Cycle.lean ====
section
/-! DEFINITION. The execution cycle (`30_encoding.md` R94), under any opcode map (R85). -/

namespace Sys2Proof.Machine

/-- What a decoding error of the words at `pc` raises: the unknown byte (`60_exceptions.md` R193), or the address
above 255 that the operand fetch would form (`30_encoding.md` R92). -/
def State.raiseDecodeError (s : State) : DecodeError → Res
  | .unknownOpcode opc => s.raise .unknownOpcode opc.toNat
  | .missingWord k => s.raise .addressOutOfRange (s.pc.toNat + k)

/-- Fetch, decode and execute the instruction at `pc` (`30_encoding.md` R94; order of checks: `60_exceptions.md`
R198). -/
def State.cycleWith (M : OpcodeMap) (s : State) : Res :=
  match decodeWith M s.fetchWords with
  | .ok i _ => exec i s
  | .refused e => s.raiseDecodeError e

/-- One pass of the cycle, under an opcode map: only a RUNNING core executes (`10_state.md` R41, `30_encoding.md`
R94). A stopped core takes no step (DESIGN CHOICE, safe: log entry 2). -/
def stepWith (M : OpcodeMap) (s : State) : Res :=
  match s.run with
  | .running => s.cycleWith M
  | .halted => .fault .coreHalted
  | .faulted => .fault .coreFaulted

/-- The core ready to run an instruction given as a number: its words placed from `pc` upward and the core RUNNING.
This stands for the host's load and start (DESIGN CHOICE: log entry 10). -/
def State.withTableWord (s : State) (nbits w : Nat) : State :=
  { s.placeWords (tableWords nbits w) with run := .running }

end Sys2Proof.Machine
end

