-- ==== Sys2Proof/Machine/Step.lean ====
section
/-! DEFINITION. One step of the core, at the opcode map of `30_encoding.md` R84, and the placing of an instruction
where the next step fetches. -/

namespace Sys2Proof.Machine

/-- One step: one whole instruction (`30_encoding.md` R94, R95). -/
def step (s : State) : Host.Outcome State Fault Refusal := stepWith opcodeMap s

/-- `s` with an instruction, given as the opcode table numbers its bits, stored where `step` fetches next, and the
core RUNNING. The words that would lie above address 255 are not stored: no such cell exists (log entry 10). -/
def State.withFetchWord (s : State) (nbits w : Nat) : State := s.withTableWord nbits w

end Sys2Proof.Machine
end

