-- ==== Sys2Proof/Machine/Load.lean ====
section
/-! DEFINITION. The load port: what the host's loader gives the core before it starts (`70_reset_and_hazards.md` R220,
R224 to R228). -/

namespace Sys2Proof.Machine

/-- A load error (`60_exceptions.md` R208). L1 (a malformed literal) and L2 (an unreadable source) arise in the
host's reading of program text, outside the core (`00_scope.md` R6; log entry 5). -/
inductive LoadError where
  /-- L3: a word would be written at an address of 0xF4 or more (`70_reset_and_hazards.md` R226) -/
  | capacityExceeded
  deriving DecidableEq, Repr

/-- Construct the machine and load a program (`70_reset_and_hazards.md` R220, R224): the bytes go to cells 0 upward,
PEM becomes their number, and the core is RUNNING. A program of more than 244 bytes is refused and the core never
starts (R226, R228). -/
def State.load (p : List Byte) : Except LoadError State :=
  if p.length ≤ Config.maxProgram then
    .ok { State.reset with mem := Memory.writeAll [] Config.loadBase p, pem := BitVec.ofNat 8 p.length }
  else .error .capacityExceeded

end Sys2Proof.Machine
end

