-- ==== Sys2Proof/Machine/Ports.lean ====
section
/-! DEFINITION. The read-only ports: status (`60_exceptions.md` R192) and debug (R206, R207). -/

namespace Sys2Proof.Machine

/-- The cause code of `60_exceptions.md` R191. -/
def Cause.code : Cause → Nat
  | .unknownOpcode => 1
  | .stackOverflow => 2
  | .badRegister => 3
  | .addressOutOfRange => 4

/-- What the status port carries (`60_exceptions.md` R192). -/
structure Status where
  run : RunState
  /-- 0 when HALTED, the cause code when FAULTED, undefined (none) when RUNNING (R191, R192; DEDUCED, safe: log
  entry 9) -/
  code : Option Nat
  /-- `pc`, opcode and info: defined only when FAULTED -/
  record : Option FaultRecord
  deriving DecidableEq, Repr

/-- The status port (`60_exceptions.md` R192). -/
def State.statusPort (s : State) : Status :=
  match s.run with
  | .running => { run := .running, code := none, record := none }
  | .halted => { run := .halted, code := some 0, record := none }
  | .faulted => { run := .faulted, code := s.fault.map fun f => f.cause.code, record := s.fault }

/-- What a trace shows (`60_exceptions.md` R207). -/
structure DebugView where
  pc : Byte
  regs : Registers
  fl : Byte
  cells : List Byte
  deriving DecidableEq, Repr

/-- A trace of `n` cells: `min(n, 256 - pc)` cells from `pc` onward, never past 255 (`60_exceptions.md` R207). -/
def State.trace (n : Nat) (s : State) : DebugView where
  pc := s.pc
  regs := s.regs
  fl := s.flags.toByte
  cells := s.mem.cellsFrom s.pc.toNat (min n (Config.memSize - s.pc.toNat))

/-- What the host reads on the debug port, while the core runs and after it stopped: the trace, and beside it all state
that a trace does not show, so that "all state survives the halt and stays readable" there (`60_exceptions.md` R206;
memory: `70_reset_and_hazards.md` R233). -/
structure DebugPort where
  /-- `pc`, the registers, the flags and the cells next to `pc` (R207) -/
  trace : DebugView
  /-- all 256 cells, cell 0 first (`70_reset_and_hazards.md` R233, `00_scope.md` R7) -/
  memory : List Byte
  /-- the program end marker (R206; DEDUCED, safe: log entry 22) -/
  pem : Byte
  /-- the run state (R206; DEDUCED, safe: log entry 22) -/
  run : RunState
  /-- the fault record (R206; DEDUCED, safe: log entry 22) -/
  fault : Option FaultRecord
  /-- the emitted values (R206; DEDUCED, safe: log entry 22) -/
  out : List Byte
  deriving DecidableEq, Repr

/-- The debug port (`60_exceptions.md` R206, R207): every part of the state. Its trace has `TRACE_CELLS` cells, a number
the spec leaves open (decision D25; log entry 8). -/
def State.debugPort (s : State) : DebugPort where
  trace := s.trace Config.traceCells
  memory := s.mem.cellsFrom 0 Config.memSize
  pem := s.pem
  run := s.run
  fault := s.fault
  out := s.out

end Sys2Proof.Machine
end

