-- ==== Sys2Proof/Safety.lean ====
section
/-! DEFINITION. The terms the statements use: what an instruction leaves unchanged, how it ends, and the invariant of
the core. -/

namespace Sys2Proof.Machine

/-- Every register outside the list keeps its value (`10_state.md` R31). -/
def KeepsRegs (ws : List Reg) (s t : State) : Prop := ∀ r : Reg, r ∉ ws → t.reg r = s.reg r

/-- Every memory cell keeps its value. -/
def KeepsMem (s t : State) : Prop := ∀ a : Byte, t.memRead a = s.memRead a

/-- Every memory cell but one keeps its value. -/
def KeepsMemBut (a : Byte) (s t : State) : Prop := ∀ b : Byte, b ≠ a → t.memRead b = s.memRead b

/-- The run state and the fault record keep their values. -/
def KeepsRun (s t : State) : Prop := t.run = s.run ∧ t.fault = s.fault

/-- Nothing but the listed registers, the program counter, the run state and the fault record may differ. -/
structure OnlyRegs (ws : List Reg) (s t : State) : Prop where
  regs : KeepsRegs ws s t
  mem : KeepsMem s t
  flags : t.flags = s.flags
  pem : t.pem = s.pem
  out : t.out = s.out

/-- A fatal condition was entered (`60_exceptions.md` R195): FAULTED, the record names the cause, the instruction's
address, the byte there and the info; `pc` still holds the instruction's address. -/
structure FaultTaken (s t : State) (c : Cause) (info : Nat) : Prop where
  run : t.run = .faulted
  fault : t.fault = some ⟨c, s.pc, t.memRead s.pc, info⟩
  pc : t.pc = s.pc

/-- A fatal condition was entered and the instruction had no other effect: steps 1 to 4 of `60_exceptions.md` R198
(R195, "exactly as it was before the instruction"). -/
def FaultsCleanly (s t : State) (c : Cause) (info : Nat) : Prop := FaultTaken s t c info ∧ OnlyRegs [] s t

/-- How a sequential instruction ends (`30_encoding.md` R97): `pc + len`, or `AddressOutOfRange` when that is above
255. -/
def Advances (len : Nat) (s t : State) : Prop :=
  (s.pc.toNat + len ≤ 255 → t.pc.toNat = s.pc.toNat + len ∧ KeepsRun s t) ∧
  (255 < s.pc.toNat + len → FaultTaken s t .addressOutOfRange (s.pc.toNat + len))

/-- How an instruction that sets `pc` itself ends (`30_encoding.md` R98). -/
def JumpsTo (a : Byte) (s t : State) : Prop := t.pc = a ∧ KeepsRun s t

/-- The registers an instruction may write (`10_state.md` R31): `regA` for LDI, the ALU instructions and POP; SP for
PUSH, POP, CALL and RET; none for PRN, CMP, JMP, JEQ, JNE and HLT. -/
def mayWrite (i : Instr) (r : Reg) : Prop :=
  match i with
  | .ldi a _ => a.toNat = r.val
  | .prn _ => False
  | .add a _ => a.toNat = r.val
  | .mul a _ => a.toNat = r.val
  | .and a _ => a.toNat = r.val
  | .or a _ => a.toNat = r.val
  | .xor a _ => a.toNat = r.val
  | .not a => a.toNat = r.val
  | .shl a _ => a.toNat = r.val
  | .shr a _ => a.toNat = r.val
  | .push _ => r = 7
  | .pop a => a.toNat = r.val ∨ r = 7
  | .call _ => r = 7
  | .ret => r = 7
  | .cmp _ _ => False
  | .jmp _ => False
  | .jeq _ => False
  | .jne _ => False
  | .hlt => False

/-- The register operand byte that an instruction jumps through in this state, if it takes the REG source of
`30_encoding.md` R96: JMP, CALL, JEQ when `E = 1`, JNE when `E = 0`. -/
def jumpOperand (i : Instr) (s : State) : Option Byte :=
  match i with
  | .jmp a => some a
  | .call a => some a
  | .jeq a => if s.flags.e then some a else none
  | .jne a => if s.flags.e then none else some a
  | .ldi _ _ => none
  | .prn _ => none
  | .add _ _ => none
  | .mul _ _ => none
  | .and _ _ => none
  | .or _ _ => none
  | .xor _ _ => none
  | .not _ => none
  | .shl _ _ => none
  | .shr _ _ => none
  | .push _ => none
  | .pop _ => none
  | .ret => none
  | .cmp _ _ => none
  | .hlt => none

/-- At most one of the three flags is set: all are clear after reset, exactly one is set after any CMP
(`10_state.md` R37). -/
def Flags.AtMostOne (f : Flags) : Prop :=
  ¬(f.l = true ∧ f.g = true) ∧ ¬(f.l = true ∧ f.e = true) ∧ ¬(f.g = true ∧ f.e = true)

/-- The info a cause records (`60_exceptions.md` R191). -/
def FaultRecord.InfoFits (f : FaultRecord) (s : State) : Prop :=
  match f.cause with
  | .unknownOpcode => f.info = f.opcode.toNat
  | .stackOverflow => f.info = s.sp.toNat ∧ s.sp.toNat ≤ s.pem.toNat + 1
  | .badRegister => 8 ≤ f.info ∧ f.info ≤ 255
  | .addressOutOfRange => 256 ≤ f.info ∧ f.info ≤ 258

/-- The invariant of the core: what reset and load establish and every step keeps. -/
structure State.Inv (s : State) : Prop where
  /-- memory is in its canonical form and holds no cell above 255 (`20_memory.md` R60) -/
  memory : s.mem.wf
  /-- "value <= 244" (`10_state.md` R46, R40) -/
  pem : s.pem.toNat ≤ 244
  /-- at most one flag is set (`10_state.md` R37) -/
  flags : s.flags.AtMostOne
  /-- the fault record is present exactly when FAULTED (`10_state.md` R42) -/
  faulted : s.run = .faulted ↔ s.fault.isSome = true
  /-- the record names `pc` and the byte there, and its info is the cause's (`10_state.md` R42, `60_exceptions.md`
  R191) -/
  record : ∀ f, s.fault = some f → f.pc = s.pc ∧ f.opcode = s.memRead s.pc ∧ f.InfoFits s
  /-- cell 255 holds 0 for the whole run (`20_memory.md` R66) -/
  topCell : s.memRead 255 = 0

/-- The core has not ended in a fatal condition: RUNNING, or HALTED by HLT (`60_exceptions.md` R192). -/
def State.Safe (s : State) : Prop := s.run ≠ .faulted

end Sys2Proof.Machine
end

