-- ==== Sys2Proof/Certificates/Slice0/Obligations.lean ====
section
/-! DEFINITION. The statements for the provers. The definitions of the first section are the shapes that several
statements share; after it, one statement each. -/

namespace Sys2Proof.Machine

/-- The core is RUNNING and these words lie from `pc` upward, inside memory. -/
abbrev HasWords (s : State) (ws : List Byte) : Prop :=
  s.run = .running ∧ ∀ k (h : k < ws.length), s.pc.toNat + k ≤ 255 ∧ s.mem.read (s.pc.toNat + k) = ws[k]

/-- `x[ra] <- f(x[ra], x[rb])` in integers, and nothing else (`41_alu.md` R127). -/
def PairResult (f : Nat → Nat → Nat) (ra rb : Reg) (s t : State) : Prop :=
  (t.reg ra).toNat = f (s.reg ra).toNat (s.reg rb).toNat ∧ OnlyRegs [ra] s t

/-- The flags CMP leaves for `p` and `q` (`43_compare_branch.md` R160), and nothing else written. -/
structure CompareResult (p q : Byte) (s t : State) : Prop where
  equal : p.toNat = q.toNat → t.flags.e = true ∧ t.flags.l = false ∧ t.flags.g = false
  less : p.toNat < q.toNat → t.flags.e = false ∧ t.flags.l = true ∧ t.flags.g = false
  greater : q.toNat < p.toNat → t.flags.e = false ∧ t.flags.l = false ∧ t.flags.g = true
  regs : KeepsRegs [] s t
  mem : KeepsMem s t
  pem : t.pem = s.pem
  out : t.out = s.out

/-- The effects of a push of `v`: SP one lower, the cell at `SP - 1` holds `v`, and no other register, cell, flag,
marker or output changed (`42_stack.md` R141). -/
structure PushResult (v : Byte) (s t : State) : Prop where
  sp : t.sp.toNat = s.sp.toNat - 1
  cell : t.memRead (s.sp - 1) = v
  mem : KeepsMemBut (s.sp - 1) s t
  regs : KeepsRegs [7] s t
  flags : t.flags = s.flags
  pem : t.pem = s.pem
  out : t.out = s.out

/-- The effects of `POP` into `ra`: the destination holds the word at SP; SP is one higher modulo 256 unless it is the
destination; nothing else changed (`42_stack.md` R146). -/
structure PopResult (ra : Reg) (s t : State) : Prop where
  dest : t.reg ra = s.memRead s.sp
  sp : ra ≠ 7 → t.sp.toNat = (s.sp.toNat + 1) % 256
  only : OnlyRegs [ra, 7] s t

/-- The effects of `RET`: `pc` takes the word at SP, SP is one higher modulo 256, nothing else changed
(`42_stack.md` R148). -/
structure RetResult (s t : State) : Prop where
  pc : JumpsTo (s.memRead s.sp) s t
  sp : t.sp.toNat = (s.sp.toNat + 1) % 256
  only : OnlyRegs [7] s t

/-- The effects of `HLT`: `pc` one higher, HALTED, nothing else changed (`44_halt.md` R180). -/
structure HaltResult (s t : State) : Prop where
  pc : t.pc.toNat = s.pc.toNat + 1
  run : t.run = .halted
  fault : t.fault = s.fault
  only : OnlyRegs [] s t

/-- The effects of `PRN` of `v`: it is appended to the output, nothing else changed (`40_load_output.md` R111). -/
structure EmitResult (v : Byte) (s t : State) : Prop where
  out : t.out = s.out ++ [v]
  regs : KeepsRegs [] s t
  mem : KeepsMem s t
  flags : t.flags = s.flags
  pem : t.pem = s.pem

/-- What `step` does on a two-word instruction with this opcode byte: the operand fetch past 255, a bad register, and
otherwise `effect` (`60_exceptions.md` R198). -/
def OneRegisterRule (opc : Byte) (effect : Reg → State → State → Prop) : Prop :=
  (∀ s, HasWords s [opc] → 255 < s.pc.toNat + 1 →
    ∃ t, step s = .next t ∧ FaultsCleanly s t .addressOutOfRange (s.pc.toNat + 1)) ∧
  (∀ s a, HasWords s [opc, a] → 8 ≤ a.toNat → ∃ t, step s = .next t ∧ FaultsCleanly s t .badRegister a.toNat) ∧
  (∀ s a (ra : Reg), HasWords s [opc, a] → a.toNat = ra.val → ∃ t, step s = .next t ∧ effect ra s t)

/-- What `step` does on a three-word instruction with this opcode byte and two register operands: the operand fetch
past 255 for operand 1 then operand 2, a bad `regA`, a bad `regB`, and otherwise `effect` (`60_exceptions.md` R198). -/
def TwoRegisterRule (opc : Byte) (effect : Reg → Reg → State → State → Prop) : Prop :=
  (∀ s, HasWords s [opc] → 255 < s.pc.toNat + 1 →
    ∃ t, step s = .next t ∧ FaultsCleanly s t .addressOutOfRange (s.pc.toNat + 1)) ∧
  (∀ s, HasWords s [opc] → s.pc.toNat + 1 ≤ 255 → 255 < s.pc.toNat + 2 →
    ∃ t, step s = .next t ∧ FaultsCleanly s t .addressOutOfRange (s.pc.toNat + 2)) ∧
  (∀ s a b, HasWords s [opc, a, b] → 8 ≤ a.toNat → ∃ t, step s = .next t ∧ FaultsCleanly s t .badRegister a.toNat) ∧
  (∀ s a b, HasWords s [opc, a, b] → a.toNat < 8 → 8 ≤ b.toNat →
    ∃ t, step s = .next t ∧ FaultsCleanly s t .badRegister b.toNat) ∧
  (∀ s a b (ra rb : Reg), HasWords s [opc, a, b] → a.toNat = ra.val → b.toNat = rb.val →
    ∃ t, step s = .next t ∧ effect ra rb s t)

/-- A two-register ALU instruction: the result, then the advance by 3 (`41_alu.md` R127). -/
def AluPairRule (opc : Byte) (f : Nat → Nat → Nat) : Prop :=
  TwoRegisterRule opc fun ra rb s t => PairResult f ra rb s t ∧ Advances 3 s t

/-- `exec` of a two-register ALU instruction answers its result, wherever the operands are registers and the next
instruction's address is in memory. -/
def AluPairCompletes (mk : Byte → Byte → Instr) (f : Nat → Nat → Nat) : Prop :=
  ∀ (s : State) (a b : Byte) (ra rb : Reg), a.toNat = ra.val → b.toNat = rb.val → s.pc.toNat + 3 ≤ 255 →
    ∃ t, exec (mk a b) s = .next t ∧ PairResult f ra rb s t ∧ t.pc.toNat = s.pc.toNat + 3 ∧ KeepsRun s t

/-- `(p << q) mod 256`, 0 when `q >= 8` (`41_alu.md` R121). -/
def shlNat (p q : Nat) : Nat := if 8 ≤ q then 0 else p * 2 ^ q % 256

/-- `floor(p / 2^q)`, 0 when `q >= 8` (`41_alu.md` R121). -/
def shrNat (p q : Nat) : Nat := if 8 ≤ q then 0 else p / 2 ^ q

end Sys2Proof.Machine

open Sys2Proof Sys2Proof.Machine

/-! ### Encoding -/

/-- The core's opcode map meets the source's constraints on any map: no shared byte, top two bits the operand count
(`30_encoding.md` R84, R85; the byte values are the spec's decision D1, log entry 1). -/
def Obligations.OpcodeMapMeetsConstraints : Prop := opcodeMap.Valid

/-- Words written out from the table of `30_encoding.md` R84 decode to the instructions they stand for (one or more a
family). -/
def Obligations.TableWordsDecode : Prop :=
  decode [0b10000010, 0, 65] = .ok (.ldi 0 65) [] ∧
  decode [0b01000111, 2] = .ok (.prn 2) [] ∧
  decode [0b10100000, 0, 1] = .ok (.add 0 1) [] ∧
  decode [0b01101001, 3] = .ok (.not 3) [] ∧
  decode [0b10101101, 1, 2] = .ok (.shr 1 2) [] ∧
  decode [0b01000101, 7] = .ok (.push 7) [] ∧
  decode [0b01010000, 1, 0x11] = .ok (.call 1) [0x11] ∧
  decode [0b00010001] = .ok .ret [] ∧
  decode [0b10100111, 0, 1] = .ok (.cmp 0 1) [] ∧
  decode [0b01010101, 2] = .ok (.jeq 2) [] ∧
  decode [0b00000001] = .ok .hlt [] ∧
  decode [0b10100001, 0, 1] = .refused (.unknownOpcode 0xA1)

/-- Under EVERY opcode map that meets `30_encoding.md` R85, decoding an encoded instruction gives it back, with every
operand byte and the words after it. -/
def Obligations.EncodeThenDecode : Prop :=
  ∀ M : OpcodeMap, M.Valid → ∀ (i : Instr) (rest : List Byte), decodeWith M (encodeWith M i ++ rest) = .ok i rest

/-- Under every opcode map, words that decode are the encoding of what they decode to: each instruction has one
spelling (`30_encoding.md` R87, R89). -/
def Obligations.DecodeThenEncode : Prop :=
  ∀ (M : OpcodeMap) (ws : List Byte) (i : Instr) (rest : List Byte),
    decodeWith M ws = .ok i rest → ws = encodeWith M i ++ rest

/-- `opcode[7:6]` is the number of operand bytes and the length is one more; no opcode has 3 there, and executing a
byte that has 3 there faults with no operand fetched, so wherever it lies (`30_encoding.md` R81). -/
def Obligations.TopBitsGiveTheLength : Prop :=
  (∀ (opc : Byte) (ws : List Byte) (i : Instr) (rest : List Byte), decode (opc :: ws) = .ok i rest →
    i.operands.length = opc.toNat / 64 ∧ i.length = opc.toNat / 64 + 1 ∧
    (opc :: ws).length = rest.length + (opc.toNat / 64 + 1)) ∧
  (∀ m : Mnemonic, (opcodeMap m).toNat / 64 ≠ 3) ∧
  (∀ s : State, s.run = .running → (s.memRead s.pc).toNat / 64 = 3 →
    ∃ t, step s = .next t ∧ FaultsCleanly s t .unknownOpcode (s.memRead s.pc).toNat)

/-! ### The cycle -/

/-- A step runs the decoded instruction, adding nothing around it: when the words at `pc` decode to `i`, and when the
encoding of `i` lies at `pc`, `step` is `exec i` (`30_encoding.md` R94). -/
def Obligations.StepRunsTheInstructionAtPc : Prop :=
  (∀ (s : State) (i : Instr) (rest : List Byte), s.run = .running → decode s.fetchWords = .ok i rest →
    step s = exec i s) ∧
  (∀ (s : State) (i : Instr), HasWords s (encode i) → step s = exec i s)

/-- The cycle is right under EVERY opcode map that meets `30_encoding.md` R85: it runs the instruction whose encoding
under that map lies at `pc`, and faults with `UnknownOpcode` on every byte outside the map. -/
def Obligations.EveryOpcodeMapRuns : Prop :=
  ∀ M : OpcodeMap, M.Valid → ∀ s : State,
    (∀ i : Instr, HasWords s (encodeWith M i) → stepWith M s = exec i s) ∧
    (s.run = .running → (∀ m, M m ≠ s.memRead s.pc) →
      ∃ t, stepWith M s = .next t ∧ FaultsCleanly s t .unknownOpcode (s.memRead s.pc).toNat)

/-- Exactly 237 of the 256 byte values are unrecognized, and a running core that fetches one faults with
`UnknownOpcode` of the raw byte, changing nothing else (`30_encoding.md` R88, `60_exceptions.md` R193). -/
def Obligations.UnknownOpcodeIsFatal : Prop :=
  ((List.range 256).filter fun b => (opcodeMap.mnemonic? (BitVec.ofNat 8 b)).isNone).length = 237 ∧
  ∀ s : State, s.run = .running → (∀ m, opcodeMap m ≠ s.memRead s.pc) →
    ∃ t, step s = .next t ∧ FaultsCleanly s t .unknownOpcode (s.memRead s.pc).toNat

/-- An operand fetch past 255 faults before any effect, with the first address that would leave memory, for every
instruction and in the order operand 1, operand 2 (`30_encoding.md` R92, decision D5). -/
def Obligations.OperandFetchPastTopFaults : Prop :=
  ∀ (s : State) (m : Mnemonic) (k : Nat), s.run = .running → s.memRead s.pc = opcodeMap m →
    1 ≤ k → k ≤ m.operandCount → 255 < s.pc.toNat + k → s.pc.toNat + (k - 1) ≤ 255 →
    ∃ t, step s = .next t ∧ FaultsCleanly s t .addressOutOfRange (s.pc.toNat + k)

/-- A core that is HALTED or FAULTED takes no further step, however many are asked for (`10_state.md` R41, decision
D15; that the model answers a named fault then is its own choice, log entry 2). -/
def Obligations.StoppedCoreTakesNoStep : Prop :=
  ∀ (s : State) (k : Nat),
    (s.run = .halted → core.run (k + 1) s = .fault .coreHalted) ∧
    (s.run = .faulted → core.run (k + 1) s = .fault .coreFaulted)

/-- Every instruction answers a next state in every state, and a running core always steps: nothing is refused
(`00_scope.md` R5; fatal conditions are next states, log entry 2). -/
def Obligations.RunningCoreAlwaysSteps : Prop :=
  (∀ (i : Instr) (s : State), ∃ t, exec i s = .next t) ∧
  (∀ s : State, s.run = .running → ∃ t, step s = .next t)

/-! ### Each instruction completes -/

/-- ADD, MUL, AND, OR, XOR, SHL and SHR complete with the result of `41_alu.md` R121, writing `regA` alone
(R127 to R132, R134, R135). -/
def Obligations.AluPairsComplete : Prop :=
  AluPairCompletes .add (fun p q => (p + q) % 256) ∧
  AluPairCompletes .mul (fun p q => p * q % 256) ∧
  AluPairCompletes .and (fun p q => p &&& q) ∧
  AluPairCompletes .or (fun p q => p ||| q) ∧
  AluPairCompletes .xor (fun p q => p ^^^ q) ∧
  AluPairCompletes .shl shlNat ∧
  AluPairCompletes .shr shrNat

/-- NOT completes with `255 - x[a]`, writing `regA` alone (`41_alu.md` R133). -/
def Obligations.NotCompletes : Prop :=
  ∀ (s : State) (a : Byte) (ra : Reg), a.toNat = ra.val → s.pc.toNat + 2 ≤ 255 →
    ∃ t, exec (.not a) s = .next t ∧ (t.reg ra).toNat = 255 - (s.reg ra).toNat ∧ OnlyRegs [ra] s t ∧
      t.pc.toNat = s.pc.toNat + 2 ∧ KeepsRun s t

/-- LDI completes with the immediate unchanged in `regA`, writing nothing else (`40_load_output.md` R110). -/
def Obligations.LdiCompletes : Prop :=
  ∀ (s : State) (a imm : Byte) (ra : Reg), a.toNat = ra.val → s.pc.toNat + 3 ≤ 255 →
    ∃ t, exec (.ldi a imm) s = .next t ∧ t.reg ra = imm ∧ OnlyRegs [ra] s t ∧
      t.pc.toNat = s.pc.toNat + 3 ∧ KeepsRun s t

/-- PRN completes with the register's value appended to the output, writing nothing else (`40_load_output.md` R111). -/
def Obligations.PrnCompletes : Prop :=
  ∀ (s : State) (a : Byte) (ra : Reg), a.toNat = ra.val → s.pc.toNat + 2 ≤ 255 →
    ∃ t, exec (.prn a) s = .next t ∧ EmitResult (s.reg ra) s t ∧ t.pc.toNat = s.pc.toNat + 2 ∧ KeepsRun s t

/-- CMP completes with exactly one flag set, the one of the unsigned comparison, writing nothing else
(`43_compare_branch.md` R160). -/
def Obligations.CmpCompletes : Prop :=
  ∀ (s : State) (a b : Byte) (ra rb : Reg), a.toNat = ra.val → b.toNat = rb.val → s.pc.toNat + 3 ≤ 255 →
    ∃ t, exec (.cmp a b) s = .next t ∧ CompareResult (s.reg ra) (s.reg rb) s t ∧
      t.pc.toNat = s.pc.toNat + 3 ∧ KeepsRun s t

/-- JMP, and JEQ and JNE taken or not, complete: the target is the register's value, whatever the address; a jump not
taken falls through by 2; nothing else is written (`43_compare_branch.md` R161 to R163). -/
def Obligations.JumpsComplete : Prop :=
  ∀ (s : State) (a : Byte) (ra : Reg), a.toNat = ra.val →
    (∃ t, exec (.jmp a) s = .next t ∧ JumpsTo (s.reg ra) s t ∧ OnlyRegs [] s t) ∧
    (s.flags.e = true → ∃ t, exec (.jeq a) s = .next t ∧ JumpsTo (s.reg ra) s t ∧ OnlyRegs [] s t) ∧
    (s.flags.e = false → ∃ t, exec (.jne a) s = .next t ∧ JumpsTo (s.reg ra) s t ∧ OnlyRegs [] s t) ∧
    (s.flags.e = false → s.pc.toNat + 2 ≤ 255 →
      ∃ t, exec (.jeq a) s = .next t ∧ t.pc.toNat = s.pc.toNat + 2 ∧ KeepsRun s t ∧ OnlyRegs [] s t) ∧
    (s.flags.e = true → s.pc.toNat + 2 ≤ 255 →
      ∃ t, exec (.jne a) s = .next t ∧ t.pc.toNat = s.pc.toNat + 2 ∧ KeepsRun s t ∧ OnlyRegs [] s t)

/-- PUSH completes when the decremented SP stays above PEM: the register's value from before the instruction lies at
`SP - 1`, SP is one lower, nothing else is written (`42_stack.md` R145; `PUSH R7` pushes the old SP, decision D8). -/
def Obligations.PushCompletes : Prop :=
  ∀ (s : State) (a : Byte) (ra : Reg), a.toNat = ra.val → s.pem.toNat + 1 < s.sp.toNat → s.pc.toNat + 2 ≤ 255 →
    ∃ t, exec (.push a) s = .next t ∧ PushResult (s.reg ra) s t ∧ t.pc.toNat = s.pc.toNat + 2 ∧ KeepsRun s t

/-- POP completes whatever SP is: the word at SP goes to the register, SP is one higher modulo 256 (for `POP R7`, R7
holds the popped word), nothing else is written (`42_stack.md` R146, decisions D8, D9, D10). -/
def Obligations.PopCompletes : Prop :=
  ∀ (s : State) (a : Byte) (ra : Reg), a.toNat = ra.val → s.pc.toNat + 2 ≤ 255 →
    ∃ t, exec (.pop a) s = .next t ∧ PopResult ra s t ∧ t.pc.toNat = s.pc.toNat + 2 ∧ KeepsRun s t

/-- CALL completes when the return address fits in a cell and the decremented SP stays above PEM: `pc + 2` lies at
`SP - 1`, `pc` is the register's value from before the instruction (`42_stack.md` R147, decisions D7, D8). -/
def Obligations.CallCompletes : Prop :=
  ∀ (s : State) (a : Byte) (ra : Reg), a.toNat = ra.val → s.pem.toNat + 1 < s.sp.toNat → s.pc.toNat + 2 ≤ 255 →
    ∃ t v, exec (.call a) s = .next t ∧ v.toNat = s.pc.toNat + 2 ∧ PushResult v s t ∧ JumpsTo (s.reg ra) s t

/-- RET completes in every state: `pc` takes the word at SP, SP is one higher modulo 256, nothing else is written
(`42_stack.md` R148). -/
def Obligations.RetCompletes : Prop :=
  ∀ s : State, ∃ t, exec .ret s = .next t ∧ RetResult s t

/-- HLT completes below address 255: `pc` is one higher, the core is HALTED, nothing else is written (`44_halt.md`
R180). -/
def Obligations.HltCompletes : Prop :=
  ∀ s : State, s.pc.toNat + 1 ≤ 255 → ∃ t, exec .hlt s = .next t ∧ HaltResult s t

/-! ### Where instructions trap -/

/-- Every instruction with a register operand byte of 8..255 faults with `BadRegister` of the first such byte, `regA`
before `regB`, with no effect; these are exactly the ill-formed instructions, and the immediate of LDI is never
checked (`30_encoding.md` R93, `60_exceptions.md` R196, decision D2). -/
def Obligations.BadRegisterFaults : Prop :=
  (∀ (i : Instr) (s : State) (b : Byte), i.registerOperands.find? (fun r => decide (8 ≤ r.toNat)) = some b →
    ∃ t, exec i s = .next t ∧ FaultsCleanly s t .badRegister b.toNat) ∧
  (∀ i : Instr, i.wf = false ↔ ∃ b, i.registerOperands.find? (fun r => decide (8 ≤ r.toNat)) = some b)

/-- When `SP - 1 <= PEM` as integers (SP = 0 and SP = PEM + 1 among them), PUSH of a register faults with `StackOverflow`
of SP, with nothing written, and so does CALL where its return address fits in a cell (`pc + 2 <= 255`) (`42_stack.md` R142,
decisions D6, D7). -/
def Obligations.StackOverflowFaults : Prop :=
  ∀ (s : State) (a : Byte) (ra : Reg), a.toNat = ra.val → (s.sp.toNat : Int) - 1 ≤ s.pem.toNat →
    (∃ t, exec (.push a) s = .next t ∧ FaultsCleanly s t .stackOverflow s.sp.toNat) ∧
    (s.pc.toNat + 2 ≤ 255 → ∃ t, exec (.call a) s = .next t ∧ FaultsCleanly s t .stackOverflow s.sp.toNat)

/-! ### The instruction rules, as steps of the machine -/

/-- LDI as a step, with its faults in order (`40_load_output.md` R110; the fault clauses are the spec's decisions D2
and D5). -/
def Obligations.LdiStepRule : Prop :=
  (∀ s, HasWords s [0x82] → 255 < s.pc.toNat + 1 →
    ∃ t, step s = .next t ∧ FaultsCleanly s t .addressOutOfRange (s.pc.toNat + 1)) ∧
  (∀ s, HasWords s [0x82] → s.pc.toNat + 1 ≤ 255 → 255 < s.pc.toNat + 2 →
    ∃ t, step s = .next t ∧ FaultsCleanly s t .addressOutOfRange (s.pc.toNat + 2)) ∧
  (∀ s a imm, HasWords s [0x82, a, imm] → 8 ≤ a.toNat →
    ∃ t, step s = .next t ∧ FaultsCleanly s t .badRegister a.toNat) ∧
  (∀ s a imm (ra : Reg), HasWords s [0x82, a, imm] → a.toNat = ra.val →
    ∃ t, step s = .next t ∧ t.reg ra = imm ∧ OnlyRegs [ra] s t ∧ Advances 3 s t)

/-- PRN as a step, with its faults in order (`40_load_output.md` R111). -/
def Obligations.PrnStepRule : Prop :=
  OneRegisterRule 0x47 fun ra s t => EmitResult (s.reg ra) s t ∧ Advances 2 s t

/-- The two-register ALU instructions as steps, with their faults in order (`41_alu.md` R127 to R132, R134, R135). -/
def Obligations.AluPairStepRules : Prop :=
  AluPairRule 0xA0 (fun p q => (p + q) % 256) ∧
  AluPairRule 0xA2 (fun p q => p * q % 256) ∧
  AluPairRule 0xA8 (fun p q => p &&& q) ∧
  AluPairRule 0xAA (fun p q => p ||| q) ∧
  AluPairRule 0xAB (fun p q => p ^^^ q) ∧
  AluPairRule 0xAC shlNat ∧
  AluPairRule 0xAD shrNat

/-- NOT as a step, with its faults in order (`41_alu.md` R133). -/
def Obligations.NotStepRule : Prop :=
  OneRegisterRule 0x69 fun ra s t =>
    (t.reg ra).toNat = 255 - (s.reg ra).toNat ∧ OnlyRegs [ra] s t ∧ Advances 2 s t

/-- PUSH as a step: the guard, the push, the advance (`42_stack.md` R145; decisions D2, D5, D6, D8). At address 254 the
advance faults after the push, and the record's opcode is the byte at `pc` then (`60_exceptions.md` R195): with SP = 255
that is the byte just pushed, as log entry 6 reads R195. -/
def Obligations.PushStepRule : Prop :=
  OneRegisterRule 0x45 fun ra s t =>
    ((s.sp.toNat : Int) - 1 ≤ s.pem.toNat → FaultsCleanly s t .stackOverflow s.sp.toNat) ∧
    ((s.pem.toNat : Int) < (s.sp.toNat : Int) - 1 → PushResult (s.reg ra) s t ∧ Advances 2 s t)

/-- POP as a step: it never faults on the stack's state (`42_stack.md` R146, decisions D8, D9, D10). -/
def Obligations.PopStepRule : Prop :=
  OneRegisterRule 0x46 fun ra s t => PopResult ra s t ∧ Advances 2 s t

/-- CALL as a step: the return address's range before the guard, the push, the jump (`42_stack.md` R147, decisions D5,
D7, D8). -/
def Obligations.CallStepRule : Prop :=
  OneRegisterRule 0x50 fun ra s t =>
    (255 < s.pc.toNat + 2 → FaultsCleanly s t .addressOutOfRange (s.pc.toNat + 2)) ∧
    (s.pc.toNat + 2 ≤ 255 → (s.sp.toNat : Int) - 1 ≤ s.pem.toNat → FaultsCleanly s t .stackOverflow s.sp.toNat) ∧
    (s.pc.toNat + 2 ≤ 255 → (s.pem.toNat : Int) < (s.sp.toNat : Int) - 1 →
      PushResult (BitVec.ofNat 8 (s.pc.toNat + 2)) s t ∧ JumpsTo (s.reg ra) s t)

/-- RET as a step: no fault, at any address (`42_stack.md` R148). -/
def Obligations.RetStepRule : Prop :=
  ∀ s, HasWords s [0x11] → ∃ t, step s = .next t ∧ RetResult s t

/-- CMP as a step, with its faults in order (`43_compare_branch.md` R160). -/
def Obligations.CmpStepRule : Prop :=
  TwoRegisterRule 0xA7 fun ra rb s t => CompareResult (s.reg ra) (s.reg rb) s t ∧ Advances 3 s t

/-- JMP as a step: it never advances (`43_compare_branch.md` R161). -/
def Obligations.JmpStepRule : Prop :=
  OneRegisterRule 0x54 fun ra s t => JumpsTo (s.reg ra) s t ∧ OnlyRegs [] s t

/-- JEQ and JNE as steps: the register is checked either way, and the advance can fault only when not taken
(`43_compare_branch.md` R162, R163). -/
def Obligations.ConditionalJumpStepRules : Prop :=
  (OneRegisterRule 0x55 fun ra s t =>
    (s.flags.e = true → JumpsTo (s.reg ra) s t) ∧ (s.flags.e = false → Advances 2 s t) ∧ OnlyRegs [] s t) ∧
  (OneRegisterRule 0x56 fun ra s t =>
    (s.flags.e = false → JumpsTo (s.reg ra) s t) ∧ (s.flags.e = true → Advances 2 s t) ∧ OnlyRegs [] s t)

/-- HLT as a step: HALTED and one further, or at address 255 FAULTED (`44_halt.md` R180, decision D11). -/
def Obligations.HltStepRule : Prop :=
  ∀ s, HasWords s [0x01] →
    (s.pc.toNat + 1 ≤ 255 → ∃ t, step s = .next t ∧ HaltResult s t) ∧
    (255 < s.pc.toNat + 1 → ∃ t, step s = .next t ∧ FaultsCleanly s t .addressOutOfRange 256)

/-! ### Reset and load -/

/-- At reset `x[0]` to `x[6]` are 0 and `x[7]` is 0xF4 (`10_state.md` R33). -/
def Obligations.ResetRegisters : Prop :=
  (∀ r : Reg, r ≠ 7 → State.reset.reg r = 0) ∧ State.reset.reg 7 = 0xF4

/-- The rest of reset (`10_state.md` R46): `pc` 0, RUNNING, no fault, no output; and by the spec's decisions D3, D4 and
D30, memory 0, flags clear, PEM 0. That reset is the load of the empty program is the model's reading, log entry 4. -/
def Obligations.ResetState : Prop :=
  State.reset.pc = 0 ∧ State.reset.run = .running ∧ State.reset.fault = none ∧ State.reset.out = [] ∧
  (∀ a : Byte, State.reset.memRead a = 0) ∧
  State.reset.flags.l = false ∧ State.reset.flags.g = false ∧ State.reset.flags.e = false ∧
  State.reset.pem = 0 ∧ State.load [] = .ok State.reset

/-- A program of at most 244 bytes loads: its bytes lie from cell 0, every other cell is 0, PEM is its length, every
other field is as at reset, and the invariant holds. A longer one is refused (`70_reset_and_hazards.md` R224, R226,
R227; decision D3 for the cells after the program). -/
def Obligations.LoadPlacesTheProgram : Prop :=
  (∀ p : List Byte, p.length ≤ 244 → ∃ s, State.load p = .ok s ∧
    (∀ a : Byte, s.memRead a = p.getD a.toNat 0) ∧ s.pem.toNat = p.length ∧
    s.regs = State.reset.regs ∧ s.pc = 0 ∧ s.flags = State.reset.flags ∧ s.run = .running ∧ s.fault = none ∧
    s.out = [] ∧ s.Inv) ∧
  (∀ p : List Byte, 244 < p.length → State.load p = .error .capacityExceeded)

/-- The invariant holds at reset. -/
def Obligations.InvariantAtReset : Prop := State.reset.Inv

/-- Every step keeps the invariant: memory canonical, PEM at most 244, at most one flag, a fault record exactly when
FAULTED and true to the state, cell 255 zero (`10_state.md` R37, R42, R46; `20_memory.md` R66; that the recorded opcode
is the byte at `pc` after a PUSH over its own opcode too is log entry 6). -/
def Obligations.StepKeepsInvariant : Prop := ∀ s t : State, s.Inv → step s = .next t → t.Inv

/-! ### Rules of the whole machine -/

/-- Over any number of steps from any state, the program's cells and the cell PEM, and cell 255, are never written, and
PEM stays (`42_stack.md` R149, `20_memory.md` R74; the spec derives both). -/
def Obligations.ProgramRegionIsNeverWritten : Prop :=
  ∀ (k : Nat) (s t : State), core.run k s = .next t →
    t.pem = s.pem ∧ ∀ a : Byte, a.toNat ≤ s.pem.toNat ∨ a = 255 → t.memRead a = s.memRead a

/-- Only PUSH and CALL write memory, and only the cell at `SP - 1`, which lies above PEM and below 255
(`20_memory.md` R61, R74). -/
def Obligations.OnlyPushesWriteMemory : Prop :=
  ∀ (i : Instr) (s t : State) (b : Byte), exec i s = .next t → t.memRead b ≠ s.memRead b →
    (i.mnemonic = .push ∨ i.mnemonic = .call) ∧ b = s.sp - 1 ∧ s.pem.toNat < b.toNat ∧ b.toNat < 255

/-- CMP alone writes a flag, in a step of the machine too; JEQ and JNE read `E`: from one state JEQ jumps with `E = 1`
and with `E = 0` goes to `pc + 2` where that is at most 255, JNE the other way round, whatever `L` and `G` are; no
other instruction reads `E`, and no instruction reads `L` or `G`: with other flags it does the same to everything else;
the debug port shows every flag, the status port none (`10_state.md` R36). -/
def Obligations.FlagsAreCmpAndJumpsAlone : Prop :=
  (∀ (i : Instr) (s t : State), exec i s = .next t → i.mnemonic ≠ .cmp → t.flags = s.flags) ∧
  (∀ s t : State, step s = .next t → s.memRead s.pc ≠ 0xA7 → t.flags = s.flags) ∧
  (∀ (i : Instr) (s t : State) (f : Flags), exec i s = .next t →
    (i.mnemonic = .jeq ∨ i.mnemonic = .jne → f.e = s.flags.e) →
    ∃ t', exec i (s.setFlags f) = .next t' ∧ t'.setFlags t.flags = t ∧
      (i.mnemonic ≠ .cmp → t'.flags = f) ∧ (i.mnemonic = .cmp → t'.flags = t.flags ∨ i.wf = false)) ∧
  (∀ (s : State) (a : Byte) (ra : Reg) (l g : Bool), a.toNat = ra.val →
    (∃ t, exec (.jeq a) (s.setFlags ⟨l, g, true⟩) = .next t ∧ t.pc = s.reg ra) ∧
    (∃ t, exec (.jne a) (s.setFlags ⟨l, g, false⟩) = .next t ∧ t.pc = s.reg ra) ∧
    (s.pc.toNat + 2 ≤ 255 →
      (∃ t, exec (.jeq a) (s.setFlags ⟨l, g, false⟩) = .next t ∧ t.pc.toNat = s.pc.toNat + 2) ∧
      (∃ t, exec (.jne a) (s.setFlags ⟨l, g, true⟩) = .next t ∧ t.pc.toNat = s.pc.toNat + 2))) ∧
  (∀ (n : Nat) (s : State) (f : Flags), (s.setFlags f).statusPort = s.statusPort ∧
    (f ≠ s.flags → ((s.setFlags f).trace n).fl ≠ (s.trace n).fl))

/-- No step writes PEM, and only PUSH and CALL read it: with another marker every other instruction does the same to
everything else (`10_state.md` R40). -/
def Obligations.PemIsReadByPushesAlone : Prop :=
  (∀ s t : State, step s = .next t → t.pem = s.pem) ∧
  (∀ (i : Instr) (s t : State) (p : Byte), i.mnemonic ≠ .push → i.mnemonic ≠ .call → exec i s = .next t →
    exec i { s with pem := p } = .next { t with pem := p })

/-- The output is only appended to: over any number of steps what was emitted stays, in order; a step adds at most one
value, and only on a PRN opcode; every executed PRN adds exactly the register's value; it is empty at reset
(`10_state.md` R43). -/
def Obligations.OutputIsOnlyAppended : Prop :=
  (∀ s t : State, step s = .next t → t.out = s.out ∨ (s.memRead s.pc = 0x47 ∧ ∃ v, t.out = s.out ++ [v])) ∧
  (∀ (k : Nat) (s t : State), core.run k s = .next t → ∃ vs, t.out = s.out ++ vs) ∧
  (∀ (s t : State) (a : Byte) (ra : Reg), HasWords s [0x47, a] → a.toNat = ra.val → step s = .next t →
    t.out = s.out ++ [s.reg ra]) ∧
  State.reset.out = []

/-- A register changes only where `10_state.md` R31 lists it as written. -/
def Obligations.RegistersChangeOnlyWhereListed : Prop :=
  ∀ (i : Instr) (s t : State) (r : Reg), exec i s = .next t → t.reg r ≠ s.reg r → mayWrite i r

/-- The next `pc` comes from one of the four sources of `30_encoding.md` R96, each only where its row says: SEQ
(`pc + len`), REG (the value of `regA`), STACK (the popped word, RET alone), HOLD (a fault) (`10_state.md` R35; the
faults at the top of memory are decision D5; the opcode recorded after a PUSH over its own opcode is log entry 6). -/
def Obligations.NextPcComesFromFourSources : Prop :=
  ∀ (i : Instr) (s t : State), exec i s = .next t →
    (t.pc.toNat = s.pc.toNat + i.length ∧ jumpOperand i s = none ∧ i ≠ .ret) ∨
    (∃ (a : Byte) (ra : Reg), jumpOperand i s = some a ∧ a.toNat = ra.val ∧ t.pc = s.reg ra) ∨
    (i = .ret ∧ t.pc = s.memRead s.sp) ∨
    (∃ c n, FaultTaken s t c n)

/-- Faults are precise: a step that faults records the cause at the instruction's own address with `pc` unchanged, and
any cause but `AddressOutOfRange` leaves the rest of the state as it was; an `AddressOutOfRange` names 256, and leaves
it as it was unless an instruction that advances ends at address 255 (`60_exceptions.md` R195, R197, R198; decisions
D5, D15; the opcode recorded after a PUSH over its own opcode is log entry 6). -/
def Obligations.FaultsArePrecise : Prop :=
  ∀ s t : State, step s = .next t → t.run = .faulted →
    ∃ c n, FaultTaken s t c n ∧ (c ≠ .addressOutOfRange → OnlyRegs [] s t) ∧
      (c = .addressOutOfRange → n = 256 ∧
        (OnlyRegs [] s t ∨
          ∃ i, HasWords s (encode i) ∧ s.pc.toNat + i.length = 256 ∧ jumpOperand i s = none ∧ i ≠ .ret))

/-- Under the invariant nothing executes at address 255: the step there faults with `UnknownOpcode(0x00)`
(`44_halt.md` R180, `90_conflicts.md` C10; rests on zeroed memory, decision D3). -/
def Obligations.TopAddressIsNotExecutable : Prop :=
  ∀ s : State, s.Inv → s.run = .running → s.pc = 255 →
    ∃ t, step s = .next t ∧ FaultsCleanly s t .unknownOpcode 0

/-! ### Instructions together -/

/-- PUSH regA then POP regB (different registers) leaves regB with regA's value from before, SP as it was (unless regB
is R7 itself), and every other register as it was (`42_stack.md` R149). -/
def Obligations.PushThenPop : Prop :=
  ∀ (s : State) (a b : Byte) (ra rb : Reg), a.toNat = ra.val → b.toNat = rb.val → ra ≠ rb →
    s.pem.toNat + 1 < s.sp.toNat → s.pc.toNat + 4 ≤ 255 →
    ∃ t u, exec (.push a) s = .next t ∧ exec (.pop b) t = .next u ∧ u.reg rb = s.reg ra ∧
      (rb ≠ 7 → u.sp = s.sp) ∧ KeepsRegs [rb, 7] s u ∧ KeepsRun s u ∧ u.pc.toNat = s.pc.toNat + 4

/-- A CALL whose target executes RET at once resumes at the instruction after the CALL, with every register, SP among
them, as it was (`42_stack.md` R149). -/
def Obligations.CallThenRet : Prop :=
  ∀ (s : State) (a : Byte) (ra : Reg), a.toNat = ra.val → s.pem.toNat + 1 < s.sp.toNat → s.pc.toNat + 2 ≤ 255 →
    ∃ t u, exec (.call a) s = .next t ∧ t.pc = s.reg ra ∧ exec .ret t = .next u ∧
      u.pc.toNat = s.pc.toNat + 2 ∧ KeepsRegs [] s u ∧ KeepsMemBut (s.sp - 1) s u ∧ KeepsRun s u

/-- After CMP of equal values JEQ jumps and JNE does not; after CMP of unequal values JNE jumps and JEQ does not
(`43_compare_branch.md` R165). -/
def Obligations.CompareThenJump : Prop :=
  ∀ (s t : State) (a b c : Byte) (ra rb rc : Reg), a.toNat = ra.val → b.toNat = rb.val → c.toNat = rc.val →
    s.pc.toNat + 5 ≤ 255 → exec (.cmp a b) s = .next t →
    ∃ u v, exec (.jeq c) t = .next u ∧ exec (.jne c) t = .next v ∧
      (s.reg ra = s.reg rb → u.pc = s.reg rc ∧ v.pc.toNat = s.pc.toNat + 5) ∧
      (s.reg ra ≠ s.reg rb → u.pc.toNat = s.pc.toNat + 5 ∧ v.pc = s.reg rc)

/-! ### The ALU and the ports -/

/-- The eight ALU functions over the integers 0..255 (`41_alu.md` R121). -/
def Obligations.AluFunctions : Prop :=
  ∀ p q : Byte,
    (aluAdd p q).toNat = (p.toNat + q.toNat) % 256 ∧
    (aluMul p q).toNat = p.toNat * q.toNat % 256 ∧
    (aluAnd p q).toNat = p.toNat &&& q.toNat ∧
    (aluOr p q).toNat = p.toNat ||| q.toNat ∧
    (aluXor p q).toNat = p.toNat ^^^ q.toNat ∧
    (aluComplement p).toNat = 255 - p.toNat ∧ aluComplement p = p ^^^ 0xFF ∧
    (aluShl p q).toNat = shlNat p.toNat q.toNat ∧
    (aluShr p q).toNat = shrNat p.toNat q.toNat

/-- A trace on the debug port shows `pc`, the registers, the flags as `0b00000LGE` and `min(n, 256 - pc)` cells from `pc`, never
past 255, whatever number of cells a trace shows (`60_exceptions.md` R207, `10_state.md` R38; decisions D17, D25). -/
def Obligations.DebugPortReads : Prop :=
  ∀ (n : Nat) (s : State),
    (s.trace n).pc = s.pc ∧ (s.trace n).regs = s.regs ∧
    (s.trace n).fl.toNat = 4 * s.flags.l.toNat + 2 * s.flags.g.toNat + s.flags.e.toNat ∧
    (s.trace n).cells.length = min n (256 - s.pc.toNat) ∧
    ∀ k (h : k < (s.trace n).cells.length), s.pc.toNat + k ≤ 255 ∧ (s.trace n).cells[k] = s.mem.read (s.pc.toNat + k)

/-- All state is readable on the debug port, in every run state: memory shows all 256 cells, those below `pc` too; PEM,
the run state, the fault record and the output show as they stand; so two states with canonical memories that read
alike there are the same state (`60_exceptions.md` R206, `70_reset_and_hazards.md` R233; that PEM, the run state, the
fault record and the output show is log entry 22). -/
def Obligations.DebugPortShowsAllState : Prop :=
  (∀ s : State, s.debugPort.trace = s.trace Config.traceCells ∧ s.debugPort.memory.length = 256 ∧
    (∀ a : Byte, s.debugPort.memory[a.toNat]? = some (s.memRead a)) ∧
    s.debugPort.pem = s.pem ∧ s.debugPort.run = s.run ∧ s.debugPort.fault = s.fault ∧ s.debugPort.out = s.out) ∧
  (∀ s t : State, s.mem.wf → t.mem.wf → s.debugPort = t.debugPort → s = t)

/-- Under the invariant the status port tells HALTED (code 0) from FAULTED (a code of 1 to 4 with the record), and has
no code while RUNNING (`60_exceptions.md` R191, R192; the code while not FAULTED is log entry 9). -/
def Obligations.StatusPortTellsHowTheRunEnded : Prop :=
  ∀ s : State, s.Inv →
    s.statusPort.run = s.run ∧
    (s.run = .running → s.statusPort.code = none ∧ s.statusPort.record = none) ∧
    (s.run = .halted → s.statusPort.code = some 0 ∧ s.statusPort.record = none) ∧
    (s.run = .faulted → ∃ f, s.statusPort.record = some f ∧ s.fault = some f ∧ s.statusPort.code = some f.cause.code ∧
      1 ≤ f.cause.code ∧ f.cause.code ≤ 4)
end

