-- ==== Sys2Proof/Laws/Decode.lean ====
section
/-! SUPPORT. Small lemmas of the decoder's parts. -/

namespace Sys2Proof

theorem Mnemonic.mem_all (m : Mnemonic) : m ∈ Mnemonic.all := by cases m <;> decide

theorem Instr.operands_length (i : Instr) : i.operands.length = i.mnemonic.operandCount := by cases i <;> rfl

/-- Assembling an instruction's own operand bytes gives it back. -/
theorem Instr.assemble_operands (i : Instr) : i.mnemonic.assemble i.operands = some i := by cases i <;> rfl

theorem assembleTwo_eq_some {mk : Byte → Byte → Instr} {ops : List Byte} {i : Instr} (h : assembleTwo mk ops = some i) :
    ∃ a b, ops = [a, b] ∧ mk a b = i := by
  match ops, h with
  | [a, b], h => exact ⟨a, b, rfl, Option.some.inj h⟩

theorem assembleOne_eq_some {mk : Byte → Instr} {ops : List Byte} {i : Instr} (h : assembleOne mk ops = some i) :
    ∃ a, ops = [a] ∧ mk a = i := by
  match ops, h with
  | [a], h => exact ⟨a, rfl, Option.some.inj h⟩

theorem assembleZ_eq_some {j : Instr} {ops : List Byte} {i : Instr} (h : assembleZ j ops = some i) :
    ops = [] ∧ j = i := by
  match ops, h with
  | [], h => exact ⟨rfl, Option.some.inj h⟩

/-- What was assembled has that mnemonic and those operand bytes. -/
theorem Mnemonic.assemble_eq_some {m : Mnemonic} {ops : List Byte} {i : Instr} (h : m.assemble ops = some i) :
    i.mnemonic = m ∧ i.operands = ops := by
  cases m <;>
    first
      | (obtain ⟨a, b, rfl, rfl⟩ := assembleTwo_eq_some h; exact ⟨rfl, rfl⟩)
      | (obtain ⟨a, rfl, rfl⟩ := assembleOne_eq_some h; exact ⟨rfl, rfl⟩)
      | (obtain ⟨rfl, rfl⟩ := assembleZ_eq_some h; exact ⟨rfl, rfl⟩)

/-- A list of the right length assembles. -/
theorem Mnemonic.assemble_isSome {m : Mnemonic} {ops : List Byte} (h : ops.length = m.operandCount) :
    ∃ i, m.assemble ops = some i := by
  cases m <;>
    first
      | (match ops, h with | [a, b], _ => exact ⟨_, rfl⟩)
      | (match ops, h with | [a], _ => exact ⟨_, rfl⟩)
      | (match ops, h with | [], _ => exact ⟨_, rfl⟩)

/-- Taking as many operand words as stand before the rest splits there. -/
theorem takeOperands_append (ops rest : List Byte) (k : Nat) :
    takeOperands k ops.length (ops ++ rest) = .ok (ops, rest) := by
  induction ops generalizing k with
  | nil => rfl
  | cons w ops ih => simp [takeOperands, ih]

/-- What was taken, before what is left, is what there was. -/
theorem takeOperands_ok {n k : Nat} {ws ops rest : List Byte} (h : takeOperands k n ws = .ok (ops, rest)) :
    ws = ops ++ rest ∧ ops.length = n := by
  induction n generalizing k ws ops with
  | zero => cases h; exact ⟨rfl, rfl⟩
  | succ n ih =>
    match ws with
    | [] => cases h
    | w :: ws =>
      unfold takeOperands at h
      split at h
      · rename_i heq; cases h; obtain ⟨rfl, hl⟩ := ih heq; exact ⟨rfl, by simp [hl]⟩
      · cases h

/-- When words are missing, the first missing one is named. -/
theorem takeOperands_short {n k : Nat} {ws : List Byte} (h : ws.length < n) :
    takeOperands k n ws = .error (.missingWord (k + ws.length)) := by
  induction n generalizing k ws with
  | zero => cases h
  | succ n ih =>
    match ws with
    | [] => rfl
    | w :: ws =>
      have := ih (k := k + 1) (ws := ws) (by simpa using h)
      simp only [takeOperands, this, List.length_cons]
      congr 2; omega

/-- Under a map with no shared byte, a mnemonic is found by its opcode. -/
theorem OpcodeMap.mnemonic?_self {M : OpcodeMap} (hM : M.Valid) (m : Mnemonic) : M.mnemonic? (M m) = some m := by
  have hs : (Mnemonic.all.find? fun m' => M m' == M m).isSome := by
    rw [List.find?_isSome]; exact ⟨m, m.mem_all, by simp⟩
  obtain ⟨m', h'⟩ := Option.isSome_iff_exists.mp hs
  have he : M m' = M m := by simpa using List.find?_some h'
  rw [OpcodeMap.mnemonic?, h', hM.injective _ _ he]

theorem OpcodeMap.mnemonic?_eq_some {M : OpcodeMap} {opc : Byte} {m : Mnemonic} (h : M.mnemonic? opc = some m) :
    M m = opc := by
  simpa using List.find?_some h

theorem OpcodeMap.mnemonic?_eq_none {M : OpcodeMap} {opc : Byte} :
    M.mnemonic? opc = none ↔ ∀ m, M m ≠ opc := by
  simp only [OpcodeMap.mnemonic?, List.find?_eq_none, beq_iff_eq]
  exact ⟨fun h m => h m m.mem_all, fun h m _ => h m⟩

end Sys2Proof
end

