-- ==== Sys2Proof/Laws/State.lean ====
section
/-! SUPPORT. One lemma per field of State and per update of it, and the register file's read-after-write laws. -/

namespace Sys2Proof.Machine

variable (s : State)

/-! ### memWrite -/

@[simp] theorem State.memWrite_mem (a v : Byte) : (s.memWrite a v).mem = s.mem.write a.toNat v := rfl
@[simp] theorem State.memWrite_regs (a v : Byte) : (s.memWrite a v).regs = s.regs := rfl
@[simp] theorem State.memWrite_pc (a v : Byte) : (s.memWrite a v).pc = s.pc := rfl
@[simp] theorem State.memWrite_flags (a v : Byte) : (s.memWrite a v).flags = s.flags := rfl
@[simp] theorem State.memWrite_pem (a v : Byte) : (s.memWrite a v).pem = s.pem := rfl
@[simp] theorem State.memWrite_run (a v : Byte) : (s.memWrite a v).run = s.run := rfl
@[simp] theorem State.memWrite_fault (a v : Byte) : (s.memWrite a v).fault = s.fault := rfl
@[simp] theorem State.memWrite_out (a v : Byte) : (s.memWrite a v).out = s.out := rfl

/-! ### setReg -/

@[simp] theorem State.setReg_mem (r : Reg) (v : Byte) : (s.setReg r v).mem = s.mem := rfl
@[simp] theorem State.setReg_regs (r : Reg) (v : Byte) : (s.setReg r v).regs = s.regs.set r.val v := rfl
@[simp] theorem State.setReg_pc (r : Reg) (v : Byte) : (s.setReg r v).pc = s.pc := rfl
@[simp] theorem State.setReg_flags (r : Reg) (v : Byte) : (s.setReg r v).flags = s.flags := rfl
@[simp] theorem State.setReg_pem (r : Reg) (v : Byte) : (s.setReg r v).pem = s.pem := rfl
@[simp] theorem State.setReg_run (r : Reg) (v : Byte) : (s.setReg r v).run = s.run := rfl
@[simp] theorem State.setReg_fault (r : Reg) (v : Byte) : (s.setReg r v).fault = s.fault := rfl
@[simp] theorem State.setReg_out (r : Reg) (v : Byte) : (s.setReg r v).out = s.out := rfl

/-! ### setPc -/

@[simp] theorem State.setPc_mem (a : Byte) : (s.setPc a).mem = s.mem := rfl
@[simp] theorem State.setPc_regs (a : Byte) : (s.setPc a).regs = s.regs := rfl
@[simp] theorem State.setPc_pc (a : Byte) : (s.setPc a).pc = a := rfl
@[simp] theorem State.setPc_flags (a : Byte) : (s.setPc a).flags = s.flags := rfl
@[simp] theorem State.setPc_pem (a : Byte) : (s.setPc a).pem = s.pem := rfl
@[simp] theorem State.setPc_run (a : Byte) : (s.setPc a).run = s.run := rfl
@[simp] theorem State.setPc_fault (a : Byte) : (s.setPc a).fault = s.fault := rfl
@[simp] theorem State.setPc_out (a : Byte) : (s.setPc a).out = s.out := rfl

/-! ### setFlags -/

@[simp] theorem State.setFlags_mem (f : Flags) : (s.setFlags f).mem = s.mem := rfl
@[simp] theorem State.setFlags_regs (f : Flags) : (s.setFlags f).regs = s.regs := rfl
@[simp] theorem State.setFlags_pc (f : Flags) : (s.setFlags f).pc = s.pc := rfl
@[simp] theorem State.setFlags_flags (f : Flags) : (s.setFlags f).flags = f := rfl
@[simp] theorem State.setFlags_pem (f : Flags) : (s.setFlags f).pem = s.pem := rfl
@[simp] theorem State.setFlags_run (f : Flags) : (s.setFlags f).run = s.run := rfl
@[simp] theorem State.setFlags_fault (f : Flags) : (s.setFlags f).fault = s.fault := rfl
@[simp] theorem State.setFlags_out (f : Flags) : (s.setFlags f).out = s.out := rfl

/-! ### emit -/

@[simp] theorem State.emit_mem (v : Byte) : (s.emit v).mem = s.mem := rfl
@[simp] theorem State.emit_regs (v : Byte) : (s.emit v).regs = s.regs := rfl
@[simp] theorem State.emit_pc (v : Byte) : (s.emit v).pc = s.pc := rfl
@[simp] theorem State.emit_flags (v : Byte) : (s.emit v).flags = s.flags := rfl
@[simp] theorem State.emit_pem (v : Byte) : (s.emit v).pem = s.pem := rfl
@[simp] theorem State.emit_run (v : Byte) : (s.emit v).run = s.run := rfl
@[simp] theorem State.emit_fault (v : Byte) : (s.emit v).fault = s.fault := rfl
@[simp] theorem State.emit_out (v : Byte) : (s.emit v).out = s.out ++ [v] := rfl

/-! ### halt -/

@[simp] theorem State.halt_mem : (s.halt).mem = s.mem := rfl
@[simp] theorem State.halt_regs : (s.halt).regs = s.regs := rfl
@[simp] theorem State.halt_pc : (s.halt).pc = s.pc := rfl
@[simp] theorem State.halt_flags : (s.halt).flags = s.flags := rfl
@[simp] theorem State.halt_pem : (s.halt).pem = s.pem := rfl
@[simp] theorem State.halt_run : (s.halt).run = .halted := rfl
@[simp] theorem State.halt_fault : (s.halt).fault = s.fault := rfl
@[simp] theorem State.halt_out : (s.halt).out = s.out := rfl

/-! ### faulted -/

@[simp] theorem State.faulted_mem (c : Cause) (n : Nat) : (s.faulted c n).mem = s.mem := rfl
@[simp] theorem State.faulted_regs (c : Cause) (n : Nat) : (s.faulted c n).regs = s.regs := rfl
@[simp] theorem State.faulted_pc (c : Cause) (n : Nat) : (s.faulted c n).pc = s.pc := rfl
@[simp] theorem State.faulted_flags (c : Cause) (n : Nat) : (s.faulted c n).flags = s.flags := rfl
@[simp] theorem State.faulted_pem (c : Cause) (n : Nat) : (s.faulted c n).pem = s.pem := rfl
@[simp] theorem State.faulted_run (c : Cause) (n : Nat) : (s.faulted c n).run = .faulted := rfl
@[simp] theorem State.faulted_fault (c : Cause) (n : Nat) : (s.faulted c n).fault = some ⟨c, s.pc, s.memRead s.pc, n⟩ := rfl
@[simp] theorem State.faulted_out (c : Cause) (n : Nat) : (s.faulted c n).out = s.out := rfl

/-! ### Registers -/

@[simp] theorem State.setReg_reg_self (r : Reg) (v : Byte) : (s.setReg r v).reg r = v := by
  simp [State.reg]

theorem State.setReg_reg_ne (r q : Reg) (v : Byte) (h : q ≠ r) : (s.setReg r v).reg q = s.reg q := by
  have : r.val ≠ q.val := fun e => h (Fin.ext e.symm)
  simp [State.reg, Vector.getElem_set_ne, this]

theorem State.setReg_reg (r q : Reg) (v : Byte) : (s.setReg r v).reg q = if q = r then v else s.reg q := by
  split
  · rename_i h; rw [h, State.setReg_reg_self]
  · rename_i h; exact State.setReg_reg_ne s r q v h

@[simp] theorem State.memWrite_reg (a v : Byte) (r : Reg) : (s.memWrite a v).reg r = s.reg r := rfl
@[simp] theorem State.memWrite_sp (a v : Byte) : (s.memWrite a v).sp = s.sp := rfl
@[simp] theorem State.setPc_reg (a : Byte) (r : Reg) : (s.setPc a).reg r = s.reg r := rfl
@[simp] theorem State.setPc_sp (a : Byte) : (s.setPc a).sp = s.sp := rfl
@[simp] theorem State.setFlags_reg (f : Flags) (r : Reg) : (s.setFlags f).reg r = s.reg r := rfl
@[simp] theorem State.setFlags_sp (f : Flags) : (s.setFlags f).sp = s.sp := rfl
@[simp] theorem State.emit_reg (v : Byte) (r : Reg) : (s.emit v).reg r = s.reg r := rfl
@[simp] theorem State.emit_sp (v : Byte) : (s.emit v).sp = s.sp := rfl
@[simp] theorem State.halt_reg (r : Reg) : (s.halt).reg r = s.reg r := rfl
@[simp] theorem State.halt_sp : (s.halt).sp = s.sp := rfl
@[simp] theorem State.faulted_reg (c : Cause) (n : Nat) (r : Reg) : (s.faulted c n).reg r = s.reg r := rfl
@[simp] theorem State.faulted_sp (c : Cause) (n : Nat) : (s.faulted c n).sp = s.sp := rfl

@[simp] theorem State.setReg_memRead (r : Reg) (v : Byte) (a : Byte) : (s.setReg r v).memRead a = s.memRead a := rfl
@[simp] theorem State.setPc_memRead (a : Byte) (q : Byte) : (s.setPc a).memRead q = s.memRead q := rfl
@[simp] theorem State.setFlags_memRead (f : Flags) (a : Byte) : (s.setFlags f).memRead a = s.memRead a := rfl
@[simp] theorem State.emit_memRead (v : Byte) (a : Byte) : (s.emit v).memRead a = s.memRead a := rfl
@[simp] theorem State.halt_memRead (a : Byte) : (s.halt).memRead a = s.memRead a := rfl
@[simp] theorem State.faulted_memRead (c : Cause) (n : Nat) (a : Byte) : (s.faulted c n).memRead a = s.memRead a := rfl

/-! ### The stack pointer -/

@[simp] theorem State.setSp_mem (v : Byte) : (s.setSp v).mem = s.mem := rfl
@[simp] theorem State.setSp_pc (v : Byte) : (s.setSp v).pc = s.pc := rfl
@[simp] theorem State.setSp_flags (v : Byte) : (s.setSp v).flags = s.flags := rfl
@[simp] theorem State.setSp_pem (v : Byte) : (s.setSp v).pem = s.pem := rfl
@[simp] theorem State.setSp_run (v : Byte) : (s.setSp v).run = s.run := rfl
@[simp] theorem State.setSp_fault (v : Byte) : (s.setSp v).fault = s.fault := rfl
@[simp] theorem State.setSp_out (v : Byte) : (s.setSp v).out = s.out := rfl
@[simp] theorem State.setSp_memRead (v a : Byte) : (s.setSp v).memRead a = s.memRead a := rfl

@[simp] theorem State.setSp_sp (v : Byte) : (s.setSp v).sp = v := State.setReg_reg_self s _ v

theorem State.setSp_reg (v : Byte) (q : Reg) : (s.setSp v).reg q = if q = Config.spIndex then v else s.reg q :=
  State.setReg_reg s _ q v

/-! ### push and pop -/

@[simp] theorem State.popped_mem : s.popped.mem = s.mem := rfl
@[simp] theorem State.pushed_pc (v : Byte) : (s.pushed v).pc = s.pc := rfl
@[simp] theorem State.popped_pc : s.popped.pc = s.pc := rfl
@[simp] theorem State.pushed_flags (v : Byte) : (s.pushed v).flags = s.flags := rfl
@[simp] theorem State.popped_flags : s.popped.flags = s.flags := rfl
@[simp] theorem State.pushed_pem (v : Byte) : (s.pushed v).pem = s.pem := rfl
@[simp] theorem State.popped_pem : s.popped.pem = s.pem := rfl
@[simp] theorem State.pushed_run (v : Byte) : (s.pushed v).run = s.run := rfl
@[simp] theorem State.popped_run : s.popped.run = s.run := rfl
@[simp] theorem State.pushed_fault (v : Byte) : (s.pushed v).fault = s.fault := rfl
@[simp] theorem State.popped_fault : s.popped.fault = s.fault := rfl
@[simp] theorem State.pushed_out (v : Byte) : (s.pushed v).out = s.out := rfl
@[simp] theorem State.popped_out : s.popped.out = s.out := rfl
@[simp] theorem State.pushed_mem (v : Byte) : (s.pushed v).mem = s.mem.write (s.sp - 1).toNat v := rfl
@[simp] theorem State.popped_memRead (a : Byte) : s.popped.memRead a = s.memRead a := rfl
@[simp] theorem State.pushed_sp (v : Byte) : (s.pushed v).sp = s.sp - 1 := State.setSp_sp s _
@[simp] theorem State.popped_sp : s.popped.sp = s.sp + 1 := State.setSp_sp s _

theorem State.pushed_reg (v : Byte) (q : Reg) :
    (s.pushed v).reg q = if q = Config.spIndex then s.sp - 1 else s.reg q := State.setSp_reg s _ q

theorem State.popped_reg (q : Reg) : s.popped.reg q = if q = Config.spIndex then s.sp + 1 else s.reg q :=
  State.setSp_reg s _ q

end Sys2Proof.Machine
end

