-- ==== Sys2Proof/Laws/Memory.lean ====
section
/-! SUPPORT. The laws of memory: read after write, that every memory operation keeps the canonical form, and that
canonical memories that read alike are equal. The read-after-write laws hold of every list, canonical or not. -/

namespace Sys2Proof.Machine

@[simp] theorem Memory.read_nil (a : Nat) : Memory.read [] a = unlistedByte := rfl

theorem Memory.read_cons (c : Host.Cell) (m : Memory) (a : Nat) :
    Memory.read (c :: m) a = if c.1 = a then c.2 else Memory.read m a := rfl

theorem Memory.erase_cons_self (c : Host.Cell) (m : Memory) : Memory.erase (c :: m) c.1 = Memory.erase m c.1 := by
  simp [Memory.erase]

theorem Memory.erase_cons_ne (c : Host.Cell) (m : Memory) (a : Nat) (h : c.1 ≠ a) :
    Memory.erase (c :: m) a = c :: Memory.erase m a := by
  simp [Memory.erase, h]

/-- An erased cell reads as unlisted; every other cell reads as before. -/
theorem Memory.read_erase (m : Memory) (a b : Nat) :
    (m.erase a).read b = if b = a then unlistedByte else m.read b := by
  induction m with
  | nil => simp [Memory.erase]
  | cons c m ih =>
    by_cases h : c.1 = a
    · subst h
      rw [Memory.erase_cons_self, ih, Memory.read_cons]
      by_cases hb : b = c.1
      · simp [hb]
      · simp [hb, Ne.symm hb]
    · rw [Memory.erase_cons_ne c m a h, Memory.read_cons, ih, Memory.read_cons]
      by_cases hb : b = a
      · subst hb; simp [h]
      · simp [hb]

theorem Memory.not_mem_erase (m : Memory) (a : Nat) : ∀ c ∈ m.erase a, c.1 ≠ a := by
  simp [Memory.erase]

/-- A cell inserted where its address is not listed reads as the value; every other cell reads as before. -/
theorem Memory.read_insert (m : Memory) (a b : Nat) (v : Byte) (h : ∀ c ∈ m, c.1 ≠ a) :
    (m.insert a v).read b = if b = a then v else m.read b := by
  induction m with
  | nil => simp [Memory.insert, Memory.read_cons, eq_comm]
  | cons c m ih =>
    have hc : c.1 ≠ a := h c (by simp)
    have ih := ih fun d hd => h d (by simp [hd])
    unfold Memory.insert
    split
    · rw [Memory.read_cons]; simp [eq_comm]
    · rw [Memory.read_cons, ih, Memory.read_cons]
      by_cases hb : b = a
      · subst hb; simp [hc]
      · simp [hb]

/-- The written cell reads as the value written, and every other cell as before. -/
theorem Memory.read_write (m : Memory) (a b : Nat) (v : Byte) :
    (m.write a v).read b = if b = a then v else m.read b := by
  unfold Memory.write
  split
  · rename_i h; rw [Memory.read_erase, h]
  · rw [Memory.read_insert _ _ _ _ (Memory.not_mem_erase m a), Memory.read_erase]
    split <;> simp_all

/-- Consecutive cells written from `a` upward. -/
theorem Memory.read_writeAll (vs : List Byte) (m : Memory) (a b : Nat) :
    (m.writeAll a vs).read b = if a ≤ b ∧ b < a + vs.length then vs.getD (b - a) unlistedByte else m.read b := by
  induction vs generalizing m a with
  | nil =>
    simp [Memory.writeAll]
  | cons v vs ih =>
    rw [Memory.writeAll, ih, Memory.read_write, List.length_cons]
    by_cases h : b = a
    · subst h
      simp
    · by_cases h2 : a + 1 ≤ b ∧ b < a + 1 + vs.length
      · have h3 : a ≤ b ∧ b < a + (vs.length + 1) := by omega
        have h4 : b - a = (b - (a + 1)) + 1 := by omega
        simp [h2, h3, h4]
      · have h3 : ¬(a ≤ b ∧ b < a + (vs.length + 1)) := by omega
        rw [if_neg h2, if_neg h, if_neg h3]

/-! ### The canonical form -/

theorem Memory.wf_nil : Memory.wf [] := by simp [Memory.wf]

theorem Memory.wf_erase (m : Memory) (a : Nat) (h : m.wf) : (m.erase a).wf :=
  ⟨h.1.filter _, fun c hc => h.2 c (List.mem_of_mem_filter hc)⟩

theorem Memory.mem_insert (m : Memory) (a : Nat) (v : Byte) (c : Host.Cell) :
    c ∈ m.insert a v ↔ c = (a, v) ∨ c ∈ m := by
  induction m with
  | nil => simp [Memory.insert]
  | cons d m ih =>
    unfold Memory.insert
    split
    · simp
    · simp only [List.mem_cons, ih]; tauto

theorem Memory.wf_insert (m : Memory) (a : Nat) (v : Byte) (h : m.wf) (ha : a < Config.memSize)
    (hv : v ≠ unlistedByte) (hn : ∀ c ∈ m, c.1 ≠ a) : (m.insert a v).wf := by
  refine ⟨?_, fun c hc => ?_⟩
  · have hp := h.1
    clear h
    induction m with
    | nil => simp [Memory.insert]
    | cons d m ih =>
      obtain ⟨hd, hm⟩ := List.pairwise_cons.mp hp
      unfold Memory.insert
      split
      · rename_i hlt
        refine List.pairwise_cons.mpr ⟨fun c hc => ?_, hp⟩
        rcases List.mem_cons.mp hc with rfl | hc
        · exact hlt
        · exact Nat.lt_trans hlt (hd c hc)
      · rename_i hlt
        refine List.pairwise_cons.mpr ⟨fun c hc => ?_, ih (fun c hc => hn c (by simp [hc])) hm⟩
        rcases (Memory.mem_insert m a v c).mp hc with rfl | hc
        · have := hn d (by simp)
          simp only at this ⊢
          omega
        · exact hd c hc
  · rcases (Memory.mem_insert m a v c).mp hc with rfl | hc
    · exact ⟨ha, hv⟩
    · exact h.2 c hc

/-- A write keeps the canonical form. -/
theorem Memory.wf_write (m : Memory) (a : Nat) (v : Byte) (h : m.wf) (ha : a < Config.memSize) : (m.write a v).wf := by
  unfold Memory.write
  split
  · exact Memory.wf_erase m a h
  · rename_i hv
    exact Memory.wf_insert _ a v (Memory.wf_erase m a h) ha hv (Memory.not_mem_erase m a)

/-- Writing consecutive cells keeps the canonical form. -/
theorem Memory.wf_writeAll (vs : List Byte) (m : Memory) (a : Nat) (h : m.wf) (ha : a + vs.length ≤ Config.memSize) :
    (m.writeAll a vs).wf := by
  induction vs generalizing m a with
  | nil => exact h
  | cons v vs ih =>
    rw [List.length_cons] at ha
    exact ih _ _ (Memory.wf_write m a v h (by omega)) (by omega)

/-- An address that no cell lists reads as unlisted. -/
theorem Memory.read_of_not_listed (m : Memory) (a : Nat) (h : ∀ c ∈ m, c.1 ≠ a) : m.read a = unlistedByte := by
  induction m with
  | nil => rfl
  | cons c m ih =>
    rw [Memory.read_cons, if_neg (h c (by simp)), ih fun d hd => h d (by simp [hd])]

/-- In a canonical list whose first cell is `c`, an address below `c`'s reads as unlisted. -/
theorem Memory.wf_read_lt (c : Host.Cell) (m : Memory) (h : Memory.wf (c :: m)) (a : Nat) (ha : a < c.1) :
    Memory.read (c :: m) a = unlistedByte := by
  refine Memory.read_of_not_listed _ a fun d hd => ?_
  rcases List.mem_cons.mp hd with rfl | hd
  · omega
  · have := (List.pairwise_cons.mp h.1).1 d hd
    omega

theorem Memory.wf_tail (c : Host.Cell) (m : Memory) (h : Memory.wf (c :: m)) : Memory.wf m :=
  ⟨(List.pairwise_cons.mp h.1).2, fun d hd => h.2 d (by simp [hd])⟩

/-- Canonical memories that read alike at every address are the same list. -/
theorem Memory.eq_of_read (m n : Memory) (hm : m.wf) (hn : n.wf) (h : ∀ a, a < Config.memSize → m.read a = n.read a) :
    m = n := by
  induction m generalizing n with
  | nil =>
    cases n with
    | nil => rfl
    | cons d n =>
      obtain ⟨hd, hv⟩ := hn.2 d (by simp)
      exact absurd (by simpa [Memory.read_cons] using (h d.1 hd).symm) hv
  | cons c m ih =>
    obtain ⟨hc, hcv⟩ := hm.2 c (by simp)
    cases n with
    | nil => exact absurd (by simpa [Memory.read_cons] using h c.1 hc) hcv
    | cons d n =>
      obtain ⟨hd, hdv⟩ := hn.2 d (by simp)
      rcases Nat.lt_trichotomy c.1 d.1 with hlt | heq | hlt
      · exact absurd (by rw [← Memory.wf_read_lt d n hn c.1 hlt, ← h c.1 hc, Memory.read_cons, if_pos rfl]) hcv
      · have hval := h c.1 hc
        rw [Memory.read_cons, if_pos rfl, Memory.read_cons, if_pos heq.symm] at hval
        have htail := ih n (Memory.wf_tail c m hm) (Memory.wf_tail d n hn) fun a ha => by
          by_cases hac : c.1 = a
          · rw [Memory.read_of_not_listed m a fun e he => hac ▸ (Nat.ne_of_gt ((List.pairwise_cons.mp hm.1).1 e he)),
              Memory.read_of_not_listed n a fun e he =>
                hac ▸ heq ▸ (Nat.ne_of_gt ((List.pairwise_cons.mp hn.1).1 e he))]
          · simpa [Memory.read_cons, hac, heq ▸ hac] using h a ha
        rw [htail, Prod.ext heq hval]
      · exact absurd (by rw [← Memory.wf_read_lt c m hm d.1 hlt, h d.1 hd, Memory.read_cons, if_pos rfl]) hdv

/-! ### Consecutive cells -/

@[simp] theorem Memory.length_cellsFrom (m : Memory) (a n : Nat) : (m.cellsFrom a n).length = n := by
  simp [Memory.cellsFrom]

@[simp] theorem Memory.getElem_cellsFrom (m : Memory) (a n k : Nat) (h : k < (m.cellsFrom a n).length) :
    (m.cellsFrom a n)[k] = m.read (a + k) := by
  simp [Memory.cellsFrom]

/-! ### Memory through the state -/

theorem State.memWrite_memRead (s : State) (a v b : Byte) :
    (s.memWrite a v).memRead b = if b = a then v else s.memRead b := by
  simp only [State.memRead, State.memWrite_mem, Memory.read_write, BitVec.toNat_inj]

theorem State.pushed_memRead (s : State) (v b : Byte) :
    (s.pushed v).memRead b = if b = s.sp - 1 then v else s.memRead b :=
  State.memWrite_memRead _ _ _ _

theorem State.memWrite_wf (s : State) (a v : Byte) (h : s.mem.wf) : (s.memWrite a v).mem.wf :=
  Memory.wf_write _ _ _ h a.isLt

theorem State.placeWords_wf (s : State) (ws : List Byte) (h : s.mem.wf) : (s.placeWords ws).mem.wf := by
  refine Memory.wf_writeAll _ _ _ h ?_
  have := s.pc.isLt
  simp only [List.length_take, Config.memSize]
  omega

theorem State.reset_wf : State.reset.mem.wf := Memory.wf_nil

end Sys2Proof.Machine
end

