-- ==== Sys2Proof/Laws/Ops.lean ====
section
/-! SUPPORT. One lemma per shared operation, saying once everything it can do. -/

namespace Sys2Proof.Machine

variable (s : State)

/-! ### Register operands -/

theorem regIndex?_of_eq (b : Byte) (r : Reg) (h : b.toNat = r.val) : regIndex? b = some r := by
  have hlt : b.toNat < 8 := h ▸ r.isLt
  simp only [regIndex?, hlt, dite_true]
  exact congrArg some (Fin.ext h)

theorem regIndex?_of_ge (b : Byte) (h : 8 ≤ b.toNat) : regIndex? b = none := by
  simp [regIndex?, Nat.not_lt.mpr h]

/-- A register operand of 0..7 goes to the instruction's body. -/
theorem withReg_of_eq (b : Byte) (r : Reg) (k : Reg → Res) (h : b.toNat = r.val) : withReg b s k = k r := by
  simp [withReg, regIndex?_of_eq b r h]

/-- A register operand of 8..255 raises `BadRegister`, whatever the body. -/
theorem withReg_of_ge (b : Byte) (k : Reg → Res) (h : 8 ≤ b.toNat) :
    withReg b s k = .next (s.faulted .badRegister b.toNat) := by
  simp [withReg, regIndex?_of_ge b h, State.raise]

/-- Everything a register operand can do. -/
theorem withReg_cases (b : Byte) (k : Reg → Res) :
    (∃ r : Reg, b.toNat = r.val ∧ withReg b s k = k r) ∨
    (8 ≤ b.toNat ∧ withReg b s k = .next (s.faulted .badRegister b.toNat)) := by
  by_cases h : b.toNat < 8
  · exact .inl ⟨⟨b.toNat, h⟩, rfl, withReg_of_eq s b _ k rfl⟩
  · exact .inr ⟨by omega, withReg_of_ge s b k (by omega)⟩

theorem withRegs_of_eq (a b : Byte) (ra rb : Reg) (k : Reg → Reg → Res) (ha : a.toNat = ra.val)
    (hb : b.toNat = rb.val) : withRegs a b s k = k ra rb := by
  rw [withRegs, withReg_of_eq s a ra _ ha, withReg_of_eq s b rb _ hb]

/-- A bad `regA` is reported, whatever `regB` is. -/
theorem withRegs_of_ge_left (a b : Byte) (k : Reg → Reg → Res) (ha : 8 ≤ a.toNat) :
    withRegs a b s k = .next (s.faulted .badRegister a.toNat) :=
  withReg_of_ge s a _ ha

/-- A bad `regB` is reported when `regA` is good. -/
theorem withRegs_of_ge_right (a b : Byte) (k : Reg → Reg → Res) (ha : a.toNat < 8) (hb : 8 ≤ b.toNat) :
    withRegs a b s k = .next (s.faulted .badRegister b.toNat) :=
  (withReg_of_eq s a ⟨a.toNat, ha⟩ _ rfl).trans (withReg_of_ge s b _ hb)

/-- Everything a pair of register operands can do. -/
theorem withRegs_cases (a b : Byte) (k : Reg → Reg → Res) :
    (∃ ra rb : Reg, a.toNat = ra.val ∧ b.toNat = rb.val ∧ withRegs a b s k = k ra rb) ∨
    (8 ≤ a.toNat ∧ withRegs a b s k = .next (s.faulted .badRegister a.toNat)) ∨
    (a.toNat < 8 ∧ 8 ≤ b.toNat ∧ withRegs a b s k = .next (s.faulted .badRegister b.toNat)) := by
  rcases withReg_cases s a (fun ra => withReg b s fun rb => k ra rb) with ⟨ra, ha, h⟩ | ⟨ha, h⟩
  · rcases withReg_cases s b (k ra) with ⟨rb, hb, h'⟩ | ⟨hb, h'⟩
    · exact .inl ⟨ra, rb, ha, hb, h.trans h'⟩
    · exact .inr (.inr ⟨ha ▸ ra.isLt, hb, h.trans h'⟩)
  · exact .inr (.inl ⟨ha, h⟩)

/-! ### Faults -/

/-- Fault entry changes the run state and the fault record alone. -/
theorem State.faulted_faultsCleanly (c : Cause) (n : Nat) : FaultsCleanly s (s.faulted c n) c n :=
  ⟨⟨rfl, rfl, rfl⟩, ⟨fun _ _ => rfl, fun _ => rfl, rfl, rfl, rfl⟩⟩

theorem State.faulted_onlyRegs (ws : List Reg) (c : Cause) (n : Nat) : OnlyRegs ws s (s.faulted c n) :=
  ⟨fun _ _ => rfl, fun _ => rfl, rfl, rfl, rfl⟩

/-! ### The sequential advance -/

theorem State.toNat_seqPc (len : Nat) (h : s.pc.toNat + len ≤ 255) :
    (BitVec.ofNat 8 (s.pc.toNat + len)).toNat = s.pc.toNat + len := by
  rw [BitVec.toNat_ofNat]; omega

theorem State.advanceThen_of_le (len : Nat) (k : State → Res) (h : s.pc.toNat + len ≤ 255) :
    s.advanceThen len k = k (s.setPc (BitVec.ofNat 8 (s.pc.toNat + len))) := by
  simp [State.advanceThen, h]

theorem State.advanceThen_of_gt (len : Nat) (k : State → Res) (h : 255 < s.pc.toNat + len) :
    s.advanceThen len k = .next (s.faulted .addressOutOfRange (s.pc.toNat + len)) := by
  simp [State.advanceThen, State.raise, Nat.not_le.mpr h]

/-- Everything the sequential advance can do: it always answers a next state, which differs in `pc`, or in the run
state and the fault record. -/
theorem State.advance_cases (len : Nat) :
    (s.pc.toNat + len ≤ 255 ∧ s.advance len = .next (s.setPc (BitVec.ofNat 8 (s.pc.toNat + len)))) ∨
    (255 < s.pc.toNat + len ∧ s.advance len = .next (s.faulted .addressOutOfRange (s.pc.toNat + len))) := by
  by_cases h : s.pc.toNat + len ≤ 255
  · exact .inl ⟨h, s.advanceThen_of_le len _ h⟩
  · exact .inr ⟨by omega, s.advanceThen_of_gt len _ (by omega)⟩

/-- The advance in the statements' terms. -/
theorem State.advance_spec (len : Nat) : ∃ t, s.advance len = .next t ∧ Advances len s t ∧ OnlyRegs [] s t := by
  rcases s.advance_cases len with ⟨h, e⟩ | ⟨h, e⟩
  · exact ⟨_, e, ⟨fun _ => ⟨s.toNat_seqPc len h, rfl, rfl⟩, fun h' => absurd h (by omega)⟩,
      ⟨fun _ _ => rfl, fun _ => rfl, rfl, rfl, rfl⟩⟩
  · exact ⟨_, e, ⟨fun h' => absurd h' (by omega), fun _ => ⟨rfl, rfl, rfl⟩⟩, s.faulted_onlyRegs _ _ _⟩

/-! ### The stack -/

theorem State.stackFull_iff : s.stackFull = true ↔ s.sp.toNat ≤ s.pem.toNat + 1 := by
  simp only [State.stackFull, decide_eq_true_eq]; omega

/-- Everything a guarded push can do. -/
theorem State.pushThen_cases (v : Byte) (k : State → Res) :
    (s.sp.toNat ≤ s.pem.toNat + 1 ∧ s.pushThen v k = .next (s.faulted .stackOverflow s.sp.toNat)) ∨
    (s.pem.toNat + 1 < s.sp.toNat ∧ s.pushThen v k = k (s.pushed v)) := by
  by_cases h : s.stackFull = true
  · exact .inl ⟨s.stackFull_iff.mp h, by simp [State.pushThen, h, State.raise]⟩
  · exact .inr ⟨by have := mt s.stackFull_iff.mpr h; omega, by simp [State.pushThen, h]⟩

/-- Where a push writes: above the program end marker and below 255 (`20_memory.md` R74). -/
theorem State.pushed_address (h : s.pem.toNat + 1 < s.sp.toNat) :
    s.pem.toNat < (s.sp - 1).toNat ∧ (s.sp - 1).toNat < 255 := by
  have := s.sp.isLt
  have e : (s.sp - 1).toNat = s.sp.toNat - 1 := by
    rw [BitVec.toNat_sub]; simp; omega
  omega

/-! ### Flags -/

/-- Exactly one flag is set by a compare. -/
theorem compareFlags_atMostOne (p q : Byte) : (compareFlags p q).AtMostOne := by
  unfold compareFlags Flags.AtMostOne
  split
  · simp
  · split <;> simp

theorem compareFlags_e (p q : Byte) : (compareFlags p q).e = decide (p = q) := by
  unfold compareFlags
  split
  · simp [*]
  · split <;> simp [*]

/-! ### Fetch -/

/-- The words a fetch sees: those of `pc`, `pc + 1`, `pc + 2` that lie inside memory. -/
theorem State.fetchWords_eq : s.fetchWords =
    s.memRead s.pc :: (if s.pc.toNat + 1 ≤ 255 then
      s.mem.read (s.pc.toNat + 1) :: (if s.pc.toNat + 2 ≤ 255 then [s.mem.read (s.pc.toNat + 2)] else []) else []) := by
  have h0 : s.pc.toNat ≤ 255 := Nat.le_of_lt_succ s.pc.isLt
  have hr : List.range Config.maxInstrWords = [0, 1, 2] := rfl
  simp only [State.fetchWords, hr, State.memRead]
  by_cases h2 : s.pc.toNat + 2 ≤ 255
  · have h1 : s.pc.toNat + 1 ≤ 255 := by omega
    simp [h0, h1, h2]
  · by_cases h1 : s.pc.toNat + 1 ≤ 255
    · simp [h0, h1, h2]
    · simp [h0, h1, h2]

end Sys2Proof.Machine
end

