-- ==== Sys2Proof/Laws/Exec.lean ====
section
/-! SUPPORT. What one instruction can do, said once: the inversion lemma of `exec`. -/

namespace Sys2Proof.Machine

/-- The destination operand of the instructions that compute one result, write it to a register and advance: LDI and
the ALU instructions. -/
def resultOperand : Instr → Option Byte
  | .ldi a _ => some a
  | .add a _ => some a
  | .mul a _ => some a
  | .and a _ => some a
  | .or a _ => some a
  | .xor a _ => some a
  | .not a => some a
  | .shl a _ => some a
  | .shr a _ => some a
  | .prn _ => none
  | .push _ => none
  | .pop _ => none
  | .call _ => none
  | .ret => none
  | .cmp _ _ => none
  | .jmp _ => none
  | .jeq _ => none
  | .jne _ => none
  | .hlt => none

/-- Every way an instruction can end, as a relation between the state before, the instruction and the next state. -/
inductive Ends (s : State) : Instr → State → Prop
  /-- a register operand of 8 or more -/
  | badRegister (i : Instr) (b : Byte) (h : 8 ≤ b.toNat) (hb : b ∈ i.registerOperands) :
      Ends s i (s.faulted .badRegister b.toNat)
  /-- PUSH or CALL at the stack's limit -/
  | overflow (i : Instr) (a : Byte) (hi : i = .push a ∨ i = .call a) (h : s.sp.toNat ≤ s.pem.toNat + 1) :
      Ends s i (s.faulted .stackOverflow s.sp.toNat)
  /-- a return address above 255 -/
  | callTop (a : Byte) (h : 255 < s.pc.toNat + 2) :
      Ends s (.call a) (s.faulted .addressOutOfRange (s.pc.toNat + 2))
  /-- LDI and the ALU instructions: one register written, then the advance -/
  | result (i : Instr) (a : Byte) (r : Reg) (v : Byte) (t : State) (hi : resultOperand i = some a)
      (ha : a.toNat = r.val) (h : (s.setReg r v).advance i.length = .next t) : Ends s i t
  /-- PRN: one value emitted, then the advance -/
  | emit (a v : Byte) (t : State) (h : (s.emit v).advance 2 = .next t) : Ends s (.prn a) t
  /-- CMP: the flags written, then the advance -/
  | compare (a b p q : Byte) (t : State) (h : (s.setFlags (compareFlags p q)).advance 3 = .next t) :
      Ends s (.cmp a b) t
  /-- PUSH: the push, then the advance -/
  | push (a v : Byte) (t : State) (hs : s.pem.toNat + 1 < s.sp.toNat) (h : (s.pushed v).advance 2 = .next t) :
      Ends s (.push a) t
  /-- POP: SP, then the destination, then the advance -/
  | pop (a : Byte) (r : Reg) (t : State) (ha : a.toNat = r.val)
      (h : (s.popped.setReg r s.top).advance 2 = .next t) : Ends s (.pop a) t
  /-- CALL: the push and the jump -/
  | call (a : Byte) (r : Reg) (v : Byte) (ha : a.toNat = r.val) (hs : s.pem.toNat + 1 < s.sp.toNat) :
      Ends s (.call a) ((s.pushed v).setPc (s.reg r))
  /-- RET: the pop and the jump -/
  | ret : Ends s .ret (s.popped.setPc s.top)
  /-- JMP, and JEQ and JNE when taken -/
  | jump (i : Instr) (a : Byte) (r : Reg) (hi : i = .jmp a ∨ i = .jeq a ∨ i = .jne a)
      (hj : jumpOperand i s = some a) (ha : a.toNat = r.val) : Ends s i (s.setPc (s.reg r))
  /-- JEQ and JNE when not taken: the advance alone -/
  | fallThrough (i : Instr) (a : Byte) (t : State) (hi : i = .jeq a ∨ i = .jne a) (hj : jumpOperand i s = none)
      (h : s.advance 2 = .next t) : Ends s i t
  /-- HLT: the advance and the halt -/
  | halt (h : s.pc.toNat + 1 ≤ 255) : Ends s .hlt (s.setPc (BitVec.ofNat 8 (s.pc.toNat + 1))).halt
  /-- HLT at address 255 -/
  | haltTop (h : 255 < s.pc.toNat + 1) : Ends s .hlt (s.faulted .addressOutOfRange (s.pc.toNat + 1))

/-- An advance answers one of two states. -/
theorem State.advance_next {s t : State} {len : Nat} (h : s.advance len = .next t) :
    (s.pc.toNat + len ≤ 255 ∧ t = s.setPc (BitVec.ofNat 8 (s.pc.toNat + len))) ∨
    (255 < s.pc.toNat + len ∧ t = s.faulted .addressOutOfRange (s.pc.toNat + len)) := by
  rcases s.advance_cases len with ⟨h1, e⟩ | ⟨h1, e⟩ <;> rw [e] at h <;> cases h
  · exact .inl ⟨h1, rfl⟩
  · exact .inr ⟨h1, rfl⟩

theorem withReg_next {s t : State} {i : Instr} {a : Byte} {k : Reg → Res} (hi : i.registerOperands = [a])
    (h : withReg a s k = .next t) : Ends s i t ∨ ∃ r : Reg, a.toNat = r.val ∧ k r = .next t := by
  rcases withReg_cases s a k with ⟨r, hr, e⟩ | ⟨h8, e⟩
  · exact .inr ⟨r, hr, e ▸ h⟩
  · rw [e] at h; cases h; exact .inl (.badRegister _ _ h8 (by simp [hi]))

theorem withRegs_next {s t : State} {i : Instr} {a b : Byte} {k : Reg → Reg → Res} (hi : i.registerOperands = [a, b])
    (h : withRegs a b s k = .next t) :
    Ends s i t ∨ ∃ r q : Reg, a.toNat = r.val ∧ b.toNat = q.val ∧ k r q = .next t := by
  rcases withRegs_cases s a b k with ⟨r, q, hr, hq, e⟩ | ⟨h8, e⟩ | ⟨_, h8, e⟩
  · exact .inr ⟨r, q, hr, hq, e ▸ h⟩
  · rw [e] at h; cases h; exact .inl (.badRegister _ _ h8 (by simp [hi]))
  · rw [e] at h; cases h; exact .inl (.badRegister _ _ h8 (by simp [hi]))

theorem aluPair_next {s t : State} {i : Instr} {f : Byte → Byte → Byte} {a b : Byte} (hi : i.registerOperands = [a, b])
    (hr : resultOperand i = some a) (hl : i.length = 3) (h : aluPair f a b s = .next t) : Ends s i t := by
  rcases withRegs_next hi h with h | ⟨r, q, ha, _, h⟩
  · exact h
  · exact .result i a r _ t hr ha (hl ▸ h)

theorem jumpIf_next {s t : State} {i : Instr} {c : Bool} {a : Byte} (hi : i = .jeq a ∨ i = .jne a)
    (hj : jumpOperand i s = if c then some a else none) (h : jumpIf c a s = .next t) : Ends s i t := by
  have hr : i.registerOperands = [a] := by rcases hi with rfl | rfl <;> rfl
  rcases withReg_next hr h with h | ⟨r, ha, h⟩
  · exact h
  · cases c
    · exact .fallThrough i a t hi hj (by simpa using h)
    · cases h; exact .jump i a r (.inr hi) hj ha

/-- The inversion lemma: if `exec` answers a next state, the instruction ended in one of the ways of `Ends`. -/
theorem exec_next {i : Instr} {s t : State} (h : exec i s = .next t) : Ends s i t := by
  cases i with
  | ldi a imm =>
    rcases withReg_next (i := .ldi a imm) rfl h with h | ⟨r, ha, h⟩
    · exact h
    · exact .result _ a r _ t rfl ha h
  | prn a =>
    rcases withReg_next (i := .prn a) rfl h with h | ⟨r, _, h⟩
    · exact h
    · exact .emit _ _ _ h
  | add a b => exact aluPair_next rfl rfl rfl h
  | mul a b => exact aluPair_next rfl rfl rfl h
  | and a b => exact aluPair_next rfl rfl rfl h
  | or a b => exact aluPair_next rfl rfl rfl h
  | xor a b => exact aluPair_next rfl rfl rfl h
  | not a =>
    rcases withReg_next (i := .not a) rfl h with h | ⟨r, ha, h⟩
    · exact h
    · exact .result _ a r _ t rfl ha h
  | shl a b => exact aluPair_next rfl rfl rfl h
  | shr a b => exact aluPair_next rfl rfl rfl h
  | push a =>
    rcases withReg_next (i := .push a) rfl h with h | ⟨r, _, h⟩
    · exact h
    · rcases s.pushThen_cases (s.reg r) fun t => t.advance 2 with ⟨hs, e⟩ | ⟨hs, e⟩ <;> rw [e] at h
      · cases h; exact .overflow _ a (.inl rfl) hs
      · exact .push _ _ _ hs h
  | pop a =>
    rcases withReg_next (i := .pop a) rfl h with h | ⟨r, ha, h⟩
    · exact h
    · exact .pop _ r _ ha h
  | call a =>
    rcases withReg_next (i := .call a) rfl h with h | ⟨r, ha, h⟩
    · exact h
    · split at h
      · rcases s.pushThen_cases (BitVec.ofNat 8 (s.pc.toNat + 2)) fun t => .next (t.setPc (s.reg r)) with
          ⟨hs, e⟩ | ⟨hs, e⟩ <;> rw [e] at h <;> cases h
        · exact .overflow _ a (.inr rfl) hs
        · exact .call _ _ _ ha hs
      · cases h; exact .callTop _ (by omega)
  | ret => cases h; exact .ret
  | cmp a b =>
    rcases withRegs_next (i := .cmp a b) rfl h with h | ⟨r, q, _, _, h⟩
    · exact h
    · exact .compare _ _ _ _ _ h
  | jmp a =>
    rcases withReg_next (i := .jmp a) rfl h with h | ⟨r, ha, h⟩
    · exact h
    · cases h; exact .jump _ a r (.inl rfl) rfl ha
  | jeq a => exact jumpIf_next (.inl rfl) rfl h
  | jne a => exact jumpIf_next (.inr rfl) (by cases e : s.flags.e <;> simp [jumpOperand, e]) h
  | hlt =>
    by_cases hp : s.pc.toNat + 1 ≤ 255
    · rw [exec, execHlt, s.advanceThen_of_le 1 _ hp] at h; cases h; exact .halt hp
    · rw [exec, execHlt, s.advanceThen_of_gt 1 _ (by omega)] at h; cases h; exact .haltTop (by omega)

end Sys2Proof.Machine
end

