-- ==== Sys2Proof/Laws/PerInstr.lean ====
section
/-! SUPPORT. Facts about every instruction as written, one lemma a constructor. -/

namespace Sys2Proof.Laws.EncodingShape

/-- The encoding is as long as the format says and at most three words (`30_encoding.md` R80, R86), and its register
operands come first among its operand bytes (R86). -/
def Statement (i : Instr) : Prop :=
  (encode i).length = i.length ∧ i.length ≤ Config.maxInstrWords ∧
    i.operands.take i.registerOperands.length = i.registerOperands

theorem ldi (a imm : Byte) : Statement (.ldi a imm) := ⟨rfl, Nat.le_of_ble_eq_true rfl, rfl⟩
theorem prn (a : Byte) : Statement (.prn a) := ⟨rfl, Nat.le_of_ble_eq_true rfl, rfl⟩
theorem add (a b : Byte) : Statement (.add a b) := ⟨rfl, Nat.le_of_ble_eq_true rfl, rfl⟩
theorem mul (a b : Byte) : Statement (.mul a b) := ⟨rfl, Nat.le_of_ble_eq_true rfl, rfl⟩
theorem and (a b : Byte) : Statement (.and a b) := ⟨rfl, Nat.le_of_ble_eq_true rfl, rfl⟩
theorem or (a b : Byte) : Statement (.or a b) := ⟨rfl, Nat.le_of_ble_eq_true rfl, rfl⟩
theorem xor (a b : Byte) : Statement (.xor a b) := ⟨rfl, Nat.le_of_ble_eq_true rfl, rfl⟩
theorem not (a : Byte) : Statement (.not a) := ⟨rfl, Nat.le_of_ble_eq_true rfl, rfl⟩
theorem shl (a b : Byte) : Statement (.shl a b) := ⟨rfl, Nat.le_of_ble_eq_true rfl, rfl⟩
theorem shr (a b : Byte) : Statement (.shr a b) := ⟨rfl, Nat.le_of_ble_eq_true rfl, rfl⟩
theorem push (a : Byte) : Statement (.push a) := ⟨rfl, Nat.le_of_ble_eq_true rfl, rfl⟩
theorem pop (a : Byte) : Statement (.pop a) := ⟨rfl, Nat.le_of_ble_eq_true rfl, rfl⟩
theorem call (a : Byte) : Statement (.call a) := ⟨rfl, Nat.le_of_ble_eq_true rfl, rfl⟩
theorem ret : Statement .ret := ⟨rfl, Nat.le_of_ble_eq_true rfl, rfl⟩
theorem cmp (a b : Byte) : Statement (.cmp a b) := ⟨rfl, Nat.le_of_ble_eq_true rfl, rfl⟩
theorem jmp (a : Byte) : Statement (.jmp a) := ⟨rfl, Nat.le_of_ble_eq_true rfl, rfl⟩
theorem jeq (a : Byte) : Statement (.jeq a) := ⟨rfl, Nat.le_of_ble_eq_true rfl, rfl⟩
theorem jne (a : Byte) : Statement (.jne a) := ⟨rfl, Nat.le_of_ble_eq_true rfl, rfl⟩
theorem hlt : Statement .hlt := ⟨rfl, Nat.le_of_ble_eq_true rfl, rfl⟩

end Sys2Proof.Laws.EncodingShape
end

