-- ==== Sys2Proof/Tests/Slice0.lean ====
section
/-! SUPPORT. The model's own tests. Expected values come from the spec: the encodings of `30_encoding.md` R84, the
vectors of `95_test_vectors.md` (each test names its row) and the rules cited; and a witness for the hypotheses of
each statement. -/

namespace Sys2Proof.Tests

open Sys2Proof.Machine

/-- The state after one step, if there is one. -/
def after (s : State) : Option State :=
  match step s with
  | .next t => some t
  | .fault _ => none
  | .refused _ => none

/-- The reset state with `pc` at an address and words placed there. -/
def codeAt (pc : Byte) (ws : List Byte) : State := (State.reset.setPc pc).placeWords ws

/-- The reset state with words at 0 and two registers set: the start of the vectors' ALU table. -/
def pair (ws : List Byte) (p q : Byte) : State := ((codeAt 0 ws).setReg 0 p).setReg 1 q

/-- What a fault leaves, for comparing with a vector's `FAULTED` entry. -/
def faultOf (s : State) : Option FaultRecord := (after s).bind fun t => if t.run = .faulted then t.fault else none

/-! ### Well-formedness: an ill-formed term for each check -/

theorem test_wf_refuses_bad_regA :
    [Instr.ldi 8 0, .prn 8, .add 8 0, .mul 8 0, .and 8 0, .or 8 0, .xor 8 0, .not 8, .shl 8 0, .shr 8 0, .push 8, .pop 8,
      .call 8, .cmp 8 0, .jmp 8, .jeq 8, .jne 255].all (fun i => !i.wf) = true := by decide

theorem test_wf_refuses_bad_regB :
    [Instr.add 0 8, .mul 0 8, .and 0 8, .or 0 8, .xor 0 8, .shl 0 8, .shr 0 8, .cmp 0 255].all (fun i => !i.wf) = true := by
  decide

theorem test_wf_takes_the_rest :
    [Instr.ldi 7 255, .prn 7, .add 7 7, .not 7, .push 7, .pop 7, .call 7, .ret, .cmp 7 0, .jmp 7, .hlt].all Instr.wf = true := by
  decide

/-! ### Decoding: one word written out from `30_encoding.md` R84 for each constructor -/

theorem test_decode_ldi : decode [0b10000010, 0, 65] = .ok (.ldi 0 65) [] := by decide
theorem test_decode_prn : decode [0b01000111, 2] = .ok (.prn 2) [] := by decide
theorem test_decode_add : decode [0b10100000, 0, 9] = .ok (.add 0 9) [] := by decide
theorem test_decode_mul : decode [0b10100010, 1, 2] = .ok (.mul 1 2) [] := by decide
theorem test_decode_and : decode [0b10101000, 1, 2] = .ok (.and 1 2) [] := by decide
theorem test_decode_or : decode [0b10101010, 1, 2] = .ok (.or 1 2) [] := by decide
theorem test_decode_xor : decode [0b10101011, 1, 2] = .ok (.xor 1 2) [] := by decide
theorem test_decode_not : decode [0b01101001, 3] = .ok (.not 3) [] := by decide
theorem test_decode_shl : decode [0b10101100, 1, 2] = .ok (.shl 1 2) [] := by decide
theorem test_decode_shr : decode [0b10101101, 1, 2] = .ok (.shr 1 2) [] := by decide
theorem test_decode_push : decode [0b01000101, 7, 1] = .ok (.push 7) [1] := by decide
theorem test_decode_pop : decode [0b01000110, 1] = .ok (.pop 1) [] := by decide
theorem test_decode_call : decode [0b01010000, 1] = .ok (.call 1) [] := by decide
theorem test_decode_ret : decode [0b00010001, 5] = .ok .ret [5] := by decide
theorem test_decode_cmp : decode [0b10100111, 1, 2] = .ok (.cmp 1 2) [] := by decide
theorem test_decode_jmp : decode [0b01010100, 4] = .ok (.jmp 4) [] := by decide
theorem test_decode_jeq : decode [0b01010101, 4] = .ok (.jeq 4) [] := by decide
theorem test_decode_jne : decode [0b01010110, 4] = .ok (.jne 4) [] := by decide
theorem test_decode_hlt : decode [0b00000001] = .ok .hlt [] := by decide

/-- X1, X2, X3 and the missing operands of R92. -/
theorem test_decode_refuses :
    decode [0x00] = .refused (.unknownOpcode 0x00) ∧ decode [0xC0] = .refused (.unknownOpcode 0xC0) ∧
    decode [0xA1, 0, 1] = .refused (.unknownOpcode 0xA1) ∧ decode [0x82] = .refused (.missingWord 1) ∧
    decode [0x82, 0] = .refused (.missingWord 2) ∧ decode [] = .refused (.missingWord 0) := by decide

/-- The table's bit numbering: the first word is bits 7..0, the second bits 15..8; missing operand bits are 0. -/
theorem test_decodeTableWord :
    decodeTableWord 24 0x410082 = some (.ldi 0 65) ∧ decodeTableWord 8 0x45 = some (.push 0) ∧
    decodeTableWord 8 0xFFFF01 = some .hlt ∧ decodeTableWord 8 0x00 = none := by decide

/-- The row's word runs as the first instruction after reset. -/
theorem test_withFetchWord : (after (State.reset.withFetchWord 24 0x410082)).map (·.reg 0) = some 65 := by decide

/-! ### LDI and PRN (`95_test_vectors.md` 2.1) -/

/-- V1, V2 -/
theorem test_ldi_effect :
    (after (codeAt 0 [0x82, 3, 0xFF])).map (fun t => (t.reg 3, t.pc)) = some (0xFF, 3) ∧
    (after (codeAt 0 [0x82, 7, 0x10])).map (fun t => (t.sp, t.pc)) = some (0x10, 3) := by decide

/-- V3, V6, V7: no effect; the effect stays; no effect -/
theorem test_ldi_faults :
    faultOf (codeAt 0 [0x82, 8, 1]) = some ⟨.badRegister, 0, 0x82, 8⟩ ∧
    faultOf (codeAt 253 [0x82, 0, 1]) = some ⟨.addressOutOfRange, 253, 0x82, 256⟩ ∧
    (after (codeAt 253 [0x82, 0, 1])).map (·.reg 0) = some 1 ∧
    faultOf (codeAt 254 [0x82, 0]) = some ⟨.addressOutOfRange, 254, 0x82, 256⟩ := by decide

/-- V4, V5 -/
theorem test_prn_effect :
    (after ((codeAt 0 [0x47, 2]).setReg 2 0xC8)).map (fun t => (t.out, t.pc)) = some ([200], 2) ∧
    (after (codeAt 0 [0x47, 7])).map (·.out) = some [244] := by decide

/-- V8 (emitted, then the fault), V9 (nothing emitted) -/
theorem test_prn_faults :
    (after (codeAt 254 [0x47, 0])).map (fun t => (t.out, t.run, t.pc)) = some ([0], .faulted, 254) ∧
    (after (codeAt 255 [0x47])).map (fun t => (t.out, t.run)) = some ([], .faulted) := by decide

/-! ### The ALU (2.2) -/

/-- A1, A2 -/
theorem test_add : (after (pair [0xA0, 0, 1] 0xC8 0x64)).map (fun t => (t.reg 0, t.reg 1, t.pc)) = some (0x2C, 0x64, 3) ∧
    (after (pair [0xA0, 0, 1] 0xFF 0x01)).map (·.reg 0) = some 0 := by decide

/-- A8, A26 -/
theorem test_mul : (after (pair [0xA2, 0, 1] 0xFF 0xFF)).map (·.reg 0) = some 1 ∧
    (after ((codeAt 0 [0xA2, 2, 2]).setReg 2 16)).map (·.reg 2) = some 0 := by decide

/-- A11 -/
theorem test_and : (after (pair [0xA8, 0, 1] 0xF0 0x3C)).map (·.reg 0) = some 0x30 := by decide

/-- R131's example -/
theorem test_or : (after (pair [0xAA, 0, 1] 0xF0 0x3C)).map (·.reg 0) = some 0xFC := by decide

/-- R132's example, A14 -/
theorem test_xor : (after (pair [0xAB, 0, 1] 0xF0 0x3C)).map (·.reg 0) = some 0xCC ∧
    (after (pair [0xAB, 0, 1] 0x5A 0x5A)).map (·.reg 0) = some 0 := by decide

/-- A34, A32 -/
theorem test_not : (after ((codeAt 0 [0x69, 3]).setReg 3 0x5A)).map (fun t => (t.reg 3, t.pc)) = some (0xA5, 2) ∧
    (after (codeAt 0 [0x69, 3])).map (·.reg 3) = some 0xFF := by decide

/-- A15, A17 -/
theorem test_shl : (after (pair [0xAC, 0, 1] 0x81 1)).map (·.reg 0) = some 2 ∧
    (after (pair [0xAC, 0, 1] 1 8)).map (·.reg 0) = some 0 := by decide

/-- A18, A30 -/
theorem test_shl_count : (after (pair [0xAC, 0, 1] 0xFF 0xFF)).map (·.reg 0) = some 0 ∧
    (after ((codeAt 0 [0xAC, 2, 2]).setReg 2 3)).map (·.reg 2) = some 24 := by decide

/-- A21, A22, A24 -/
theorem test_shr : (after (pair [0xAD, 0, 1] 0x80 1)).map (·.reg 0) = some 0x40 ∧
    (after (pair [0xAD, 0, 1] 0xFF 8)).map (·.reg 0) = some 0 ∧
    (after (pair [0xAD, 0, 1] 0x2A 0)).map (·.reg 0) = some 0x2A := by decide

/-- A35, A36 -/
theorem test_add_bad_register :
    faultOf (codeAt 0 [0xA0, 0, 9]) = some ⟨.badRegister, 0, 0xA0, 9⟩ ∧
    faultOf (codeAt 0 [0xA0, 12, 9]) = some ⟨.badRegister, 0, 0xA0, 12⟩ := by decide

/-! ### The stack (2.3) -/

/-- S1, S2 -/
theorem test_push :
    (after (pair [0x45, 0] 0x2A 0)).map (fun t => (t.sp, t.memRead 0xF3, t.pc)) = some (0xF3, 0x2A, 2) ∧
    (after (codeAt 0 [0x45, 7])).map (fun t => (t.sp, t.memRead 0xF3)) = some (0xF3, 0xF4) := by decide

/-- S7, S8, S9 -/
theorem test_push_guard :
    faultOf { (codeAt 0 [0x45, 0]).setSp 3 with pem := 2 } = some ⟨.stackOverflow, 0, 0x45, 3⟩ ∧
    (after { (codeAt 0 [0x45, 0]).setSp 4 with pem := 2 }).map (fun t => (t.sp, t.run)) = some (3, .running) ∧
    faultOf { (codeAt 0 [0x45, 0]).setSp 0 with pem := 2 } = some ⟨.stackOverflow, 0, 0x45, 0⟩ := by decide

/-- R195 read word by word (log entry 6): the push lands on the PUSH's own opcode, and the advance then faults. -/
theorem test_push_over_its_own_opcode :
    faultOf (((codeAt 254 [0x45, 0]).setSp 255).setReg 0 0x2A) = some ⟨.addressOutOfRange, 254, 0x2A, 256⟩ := by decide

/-- S3, S4 -/
theorem test_pop :
    (after (((codeAt 0 [0x46, 1]).setSp 0xF3).memWrite 0xF3 0x2A)).map (fun t => (t.reg 1, t.sp, t.pc)) =
      some (0x2A, 0xF4, 2) ∧
    (after (((codeAt 0 [0x46, 7]).setSp 0xF3).memWrite 0xF3 0x2A)).map (·.sp) = some 0x2A := by decide

/-- S5, S6 -/
theorem test_pop_edges :
    (after (codeAt 0 [0x46, 1])).map (fun t => (t.reg 1, t.sp, t.run)) = some (0, 0xF5, .running) ∧
    (after (((codeAt 0 [0x46, 1]).setSp 0xFF).memWrite 0xFF 9)).map (fun t => (t.reg 1, t.sp)) = some (9, 0) := by decide

/-- S11, S12, S15 -/
theorem test_call :
    (after (pair [0x50, 1] 0 0x20)).map (fun t => (t.sp, t.memRead 0xF3, t.pc)) = some (0xF3, 2, 0x20) ∧
    (after (codeAt 0 [0x50, 7])).map (fun t => (t.memRead 0xF3, t.pc)) = some (2, 0xF4) ∧
    (after (codeAt 253 [0x50, 0])).map (fun t => (t.memRead 0xF3, t.pc)) = some (0xFF, 0) := by decide

/-- S13, S14 -/
theorem test_call_faults :
    faultOf { (pair [0x50, 1] 0 0x20).setSp 3 with pem := 2 } = some ⟨.stackOverflow, 0, 0x50, 3⟩ ∧
    faultOf (codeAt 254 [0x50, 0]) = some ⟨.addressOutOfRange, 254, 0x50, 256⟩ ∧
    (after (codeAt 254 [0x50, 0])).map (·.sp) = some 0xF4 := by decide

/-- S16, S18 -/
theorem test_ret :
    (after (((codeAt 0 [0x11]).setSp 0xF3).memWrite 0xF3 0x40)).map (fun t => (t.pc, t.sp)) = some (0x40, 0xF4) ∧
    (after (((codeAt 255 [0x11]).setSp 0xF3).memWrite 0xF3 0x10)).map (fun t => (t.pc, t.run)) = some (0x10, .running) := by
  decide

/-! ### Compare, jump, halt (2.4, 2.5) -/

/-- B1, B2, B3 from `LGE = 111` -/
theorem test_cmp :
    (after ((pair [0xA7, 0, 1] 5 5).setFlags ⟨true, true, true⟩)).map (·.flags) = some ⟨false, false, true⟩ ∧
    (after ((pair [0xA7, 0, 1] 3 9).setFlags ⟨true, true, true⟩)).map (·.flags) = some ⟨true, false, false⟩ ∧
    (after ((pair [0xA7, 0, 1] 9 3).setFlags ⟨true, true, true⟩)).map (·.flags) = some ⟨false, true, false⟩ := by decide

/-- B4: unsigned -/
theorem test_cmp_unsigned :
    (after (pair [0xA7, 0, 1] 0 255)).map (fun t => (t.flags, t.pc)) = some (⟨true, false, false⟩, 3) := by decide

/-- B7, B14 -/
theorem test_jmp :
    (after ((codeAt 0 [0x54, 4]).setReg 4 0x30)).map (·.pc) = some 0x30 ∧
    (after (codeAt 254 [0x54, 0])).map (fun t => (t.pc, t.run)) = some (0, .running) := by decide

/-- B9, B10, B15 -/
theorem test_jeq :
    (after ((codeAt 0 [0x55, 4]).setReg 4 0x30)).map (·.pc) = some 2 ∧
    (after (((codeAt 0 [0x55, 4]).setReg 4 0x30).setFlags ⟨false, false, true⟩)).map (·.pc) = some 0x30 ∧
    faultOf (codeAt 254 [0x55, 0]) = some ⟨.addressOutOfRange, 254, 0x55, 256⟩ := by decide

/-- B11, B12 -/
theorem test_jne :
    (after ((codeAt 0 [0x56, 4]).setReg 4 0x30)).map (·.pc) = some 0x30 ∧
    (after (((codeAt 0 [0x56, 4]).setReg 4 0x30).setFlags ⟨false, false, true⟩)).map (·.pc) = some 2 := by decide

/-- H1, H2 -/
theorem test_hlt :
    (after (codeAt 0 [0x01])).map (fun t => (t.pc, t.run, t.fault)) = some (1, .halted, none) ∧
    faultOf (codeAt 255 [0x01]) = some ⟨.addressOutOfRange, 255, 0x01, 256⟩ := by decide

/-- X1, X3; and no step after a stop -/
theorem test_unknown_opcode :
    faultOf State.reset = some ⟨.unknownOpcode, 0, 0, 0⟩ ∧
    faultOf (codeAt 0 [0xA1, 0, 1]) = some ⟨.unknownOpcode, 0, 0xA1, 0xA1⟩ ∧
    after State.reset.halt = none := by decide

/-! ### Memory, load and ports -/

/-- Equal memories are equal lists: order of writing does not matter, and writing 0 removes the entry. -/
theorem test_memory_canonical :
    (Memory.write (Memory.write [] 5 1) 3 2) = [(3, 2), (5, 1)] ∧ Memory.write [(3, 2), (5, 1)] 3 0 = [(5, 1)] := by decide

/-- W9 and W8: the program of W1 in place, PEM its length; 245 bytes refused. -/
theorem test_load :
    ((State.load [0x82, 0, 0x41, 0x47, 0, 1]).toOption.map fun s => (s.memRead 0, s.memRead 2, s.memRead 5, s.pem)) =
      some (0x82, 0x41, 1, 6) ∧
    State.load (List.replicate 245 1) = .error .capacityExceeded :=
  ⟨by decide, if_neg (by rw [List.length_replicate]; decide)⟩

/-- A trace of 4 cells at 254 shows 2 (R207), and the flags byte is `0b00000LGE` (R38). -/
theorem test_trace :
    ((codeAt 254 [0x54, 3]).trace 4).cells = [0x54, 3] ∧ (State.reset.trace 4).fl = 0 ∧
    ((State.reset.setFlags ⟨true, false, true⟩).trace 0).fl = 0b101 := by decide

/-- A halted core still shows a cell below `pc` on the debug port (R206, R233), and the output it emitted. -/
theorem test_debug_port :
    ((codeAt 4 [0x54, 3]).setPc 200).halt.debugPort.memory[5]? = some 3 ∧
    ((State.reset.emit 9).halt.debugPort.out) = [9] := by decide

/-- HALTED is code 0, a fault its cause's code (R191, R192). -/
theorem test_status :
    State.reset.halt.statusPort.code = some 0 ∧ (after State.reset).map (·.statusPort.code) = some (some 1) := by decide

/-! ### Witnesses: the hypotheses of each statement are met -/

/-- Another opcode map than the core's, meeting `30_encoding.md` R85: the operand count above the mnemonic's number. -/
def otherMap : OpcodeMap := fun m => BitVec.ofNat 8 (64 * m.operandCount + Mnemonic.all.idxOf m)

theorem witness_EncodeThenDecode : otherMap.Valid :=
  ⟨fun m m' => by cases m <;> cases m' <;> decide, fun m => by cases m <;> decide⟩

theorem witness_DecodeThenEncode : ∃ M ws i rest, decodeWith M ws = .ok i rest :=
  ⟨opcodeMap, [0x11, 5], .ret, [5], by decide⟩

theorem witness_TopBitsGiveTheLength :
    (∃ opc ws i rest, decode (opc :: ws) = .ok i rest) ∧
    (∃ s : State, s.run = .running ∧ (s.memRead s.pc).toNat / 64 = 3) :=
  ⟨⟨0x82, [7, 255], .ldi 7 255, [], by decide⟩, ⟨codeAt 255 [0xC0], by decide⟩⟩

theorem witness_StepRunsTheInstructionAtPc :
    (∃ (s : State) (i : Instr) (rest : List Byte), s.run = .running ∧ decode s.fetchWords = .ok i rest) ∧
    (∃ (s : State) (i : Instr), HasWords s (encode i)) :=
  ⟨⟨codeAt 253 [0x82, 7, 255], .ldi 7 255, [], by decide⟩, ⟨codeAt 253 [0x82, 7, 255], .ldi 7 255, by decide⟩⟩

theorem witness_EveryOpcodeMapRuns :
    otherMap.Valid ∧ (∃ s i, HasWords s (encodeWith otherMap i)) ∧
    (∃ s : State, s.run = .running ∧ ∀ m, otherMap m ≠ s.memRead s.pc) :=
  ⟨witness_EncodeThenDecode, ⟨codeAt 253 [0x80, 7, 255], .ldi 7 255, by decide⟩,
    ⟨codeAt 0 [0xFF], by decide, fun m => by cases m <;> decide⟩⟩

theorem witness_UnknownOpcodeIsFatal : ∃ s : State, s.run = .running ∧ ∀ m, opcodeMap m ≠ s.memRead s.pc :=
  ⟨State.reset, by decide, fun m => by cases m <;> decide⟩

theorem witness_OperandFetchPastTopFaults :
    (∃ (s : State) (m : Mnemonic), s.run = .running ∧ s.memRead s.pc = opcodeMap m ∧ 1 ≤ m.operandCount ∧
      255 < s.pc.toNat + 1 ∧ s.pc.toNat + 0 ≤ 255) ∧
    (∃ (s : State) (m : Mnemonic), s.run = .running ∧ s.memRead s.pc = opcodeMap m ∧ 2 ≤ m.operandCount ∧
      255 < s.pc.toNat + 2 ∧ s.pc.toNat + 1 ≤ 255) :=
  ⟨⟨codeAt 255 [0x47], .prn, by decide⟩, ⟨codeAt 254 [0xA0, 0], .add, by decide⟩⟩

theorem witness_StoppedCoreTakesNoStep : (∃ s : State, s.run = .halted) ∧ (∃ s : State, s.run = .faulted) :=
  ⟨⟨State.reset.halt, rfl⟩, ⟨State.reset.faulted .unknownOpcode 0, rfl⟩⟩

theorem witness_RunningCoreAlwaysSteps : ∃ s : State, s.run = .running := ⟨State.reset, rfl⟩

/-- For the three-word instructions' completion statements (AluPairsComplete, LdiCompletes, CmpCompletes): the highest
`pc`, and a source that is the destination and the stack pointer. -/
theorem witness_three_word_completion :
    ∃ (s : State) (a b : Byte) (ra rb : Reg), a.toNat = ra.val ∧ b.toNat = rb.val ∧ s.pc.toNat + 3 ≤ 255 :=
  ⟨State.reset.setPc 252, 7, 7, 7, 7, by decide⟩

theorem witness_AluPairsComplete :
    ∃ (s : State) (a b : Byte) (ra rb : Reg), a.toNat = ra.val ∧ b.toNat = rb.val ∧ s.pc.toNat + 3 ≤ 255 :=
  witness_three_word_completion

theorem witness_CmpCompletes :
    ∃ (s : State) (a b : Byte) (ra rb : Reg), a.toNat = ra.val ∧ b.toNat = rb.val ∧ s.pc.toNat + 3 ≤ 255 :=
  witness_three_word_completion

theorem witness_LdiCompletes : ∃ (s : State) (a : Byte) (ra : Reg), a.toNat = ra.val ∧ s.pc.toNat + 3 ≤ 255 :=
  ⟨State.reset.setPc 252, 7, 7, by decide⟩

/-- For the two-word instructions' completion statements: the highest `pc`. -/
theorem witness_NotCompletes : ∃ (s : State) (a : Byte) (ra : Reg), a.toNat = ra.val ∧ s.pc.toNat + 2 ≤ 255 :=
  ⟨State.reset.setPc 253, 7, 7, by decide⟩

theorem witness_PrnCompletes : ∃ (s : State) (a : Byte) (ra : Reg), a.toNat = ra.val ∧ s.pc.toNat + 2 ≤ 255 :=
  witness_NotCompletes

theorem witness_PopCompletes : ∃ (s : State) (a : Byte) (ra : Reg), a.toNat = ra.val ∧ s.pc.toNat + 2 ≤ 255 :=
  witness_NotCompletes

theorem witness_JumpsComplete :
    (∃ (s : State) (a : Byte) (ra : Reg), a.toNat = ra.val ∧ s.flags.e = true ∧ s.pc.toNat + 2 ≤ 255) ∧
    (∃ (s : State) (a : Byte) (ra : Reg), a.toNat = ra.val ∧ s.flags.e = false ∧ s.pc.toNat + 2 ≤ 255) :=
  ⟨⟨(State.reset.setPc 253).setFlags ⟨false, false, true⟩, 4, 4, by decide⟩, ⟨State.reset.setPc 253, 4, 4, by decide⟩⟩

/-- The lowest SP a push succeeds from, PEM + 2. -/
theorem witness_PushCompletes : ∃ (s : State) (a : Byte) (ra : Reg), a.toNat = ra.val ∧
    s.pem.toNat + 1 < s.sp.toNat ∧ s.pc.toNat + 2 ≤ 255 :=
  ⟨(State.reset.setPc 253).setSp 2, 7, 7, by decide⟩

theorem witness_CallCompletes : ∃ (s : State) (a : Byte) (ra : Reg), a.toNat = ra.val ∧
    s.pem.toNat + 1 < s.sp.toNat ∧ s.pc.toNat + 2 ≤ 255 :=
  witness_PushCompletes

theorem witness_HltCompletes : ∃ s : State, s.pc.toNat + 1 ≤ 255 := ⟨State.reset.setPc 254, by decide⟩

theorem witness_BadRegisterFaults :
    ∃ (i : Instr) (b : Byte), i.registerOperands.find? (fun r => decide (8 ≤ r.toNat)) = some b ∧ i.wf = false :=
  ⟨.add 7 8, 8, by decide⟩

/-- SP = PEM + 1 and SP = 0. -/
theorem witness_StackOverflowFaults :
    (∃ (s : State) (a : Byte) (ra : Reg), a.toNat = ra.val ∧ (s.sp.toNat : Int) - 1 ≤ s.pem.toNat ∧ s.pc.toNat + 2 ≤ 255) ∧
    (∃ (s : State) (a : Byte) (ra : Reg), a.toNat = ra.val ∧ (s.sp.toNat : Int) - 1 ≤ s.pem.toNat ∧ s.sp = 0) :=
  ⟨⟨(State.reset.setPc 253).setSp 1, 0, 0, by decide⟩, ⟨State.reset.setSp 0, 0, 0, by decide⟩⟩

theorem witness_LdiStepRule :
    (∃ s, HasWords s [0x82] ∧ 255 < s.pc.toNat + 1) ∧
    (∃ s, HasWords s [0x82] ∧ s.pc.toNat + 1 ≤ 255 ∧ 255 < s.pc.toNat + 2) ∧
    (∃ s a imm, HasWords s [0x82, a, imm] ∧ 8 ≤ a.toNat) ∧
    (∃ s a imm, ∃ ra : Reg, HasWords s [0x82, a, imm] ∧ a.toNat = ra.val) :=
  ⟨⟨codeAt 255 [0x82], by decide⟩, ⟨codeAt 254 [0x82], by decide⟩, ⟨codeAt 253 [0x82, 8, 255], 8, 255, by decide⟩,
    ⟨codeAt 253 [0x82, 7, 255], 7, 255, 7, by decide⟩⟩

/-- The hypotheses of the clauses of a one-register step rule. -/
abbrev OneRegisterClauses (opc : Byte) : Prop :=
  (HasWords (codeAt 255 [opc]) [opc] ∧ 255 < (codeAt 255 [opc]).pc.toNat + 1) ∧
  (HasWords (codeAt 254 [opc, 8]) [opc, 8] ∧ 8 ≤ (8 : Byte).toNat) ∧
  (HasWords (codeAt 254 [opc, 7]) [opc, 7] ∧ (7 : Byte).toNat = (7 : Reg).val)

/-- The hypotheses of the clauses of a two-register step rule. -/
abbrev TwoRegisterClauses (opc : Byte) : Prop :=
  (HasWords (codeAt 255 [opc]) [opc] ∧ 255 < (codeAt 255 [opc]).pc.toNat + 1) ∧
  (HasWords (codeAt 254 [opc]) [opc] ∧ (codeAt 254 [opc]).pc.toNat + 1 ≤ 255 ∧ 255 < (codeAt 254 [opc]).pc.toNat + 2) ∧
  (HasWords (codeAt 253 [opc, 8, 0]) [opc, 8, 0] ∧ 8 ≤ (8 : Byte).toNat) ∧
  (HasWords (codeAt 253 [opc, 7, 8]) [opc, 7, 8] ∧ (7 : Byte).toNat < 8 ∧ 8 ≤ (8 : Byte).toNat) ∧
  (HasWords (codeAt 253 [opc, 7, 0]) [opc, 7, 0] ∧ (7 : Byte).toNat = (7 : Reg).val ∧ (0 : Byte).toNat = (0 : Reg).val)

theorem witness_PrnStepRule : OneRegisterClauses 0x47 := by decide
theorem witness_NotStepRule : OneRegisterClauses 0x69 := by decide
theorem witness_PopStepRule : OneRegisterClauses 0x46 := by decide
theorem witness_JmpStepRule : OneRegisterClauses 0x54 := by decide
theorem witness_CmpStepRule : TwoRegisterClauses 0xA7 := by decide

theorem witness_AluPairStepRules :
    TwoRegisterClauses 0xA0 ∧ TwoRegisterClauses 0xA2 ∧ TwoRegisterClauses 0xA8 ∧ TwoRegisterClauses 0xAA ∧
    TwoRegisterClauses 0xAB ∧ TwoRegisterClauses 0xAC ∧ TwoRegisterClauses 0xAD :=
  ⟨by decide, by decide, by decide, by decide, by decide, by decide, by decide⟩

/-- Both sides of the guard: SP = PEM + 1 and SP = PEM + 2. -/
theorem witness_PushStepRule :
    OneRegisterClauses 0x45 ∧
    (∃ s, HasWords s [0x45, 0] ∧ (s.sp.toNat : Int) - 1 ≤ s.pem.toNat) ∧
    (∃ s, HasWords s [0x45, 0] ∧ (s.pem.toNat : Int) < (s.sp.toNat : Int) - 1) :=
  ⟨by decide, ⟨(codeAt 0 [0x45, 0]).setSp 1, by decide⟩, ⟨(codeAt 0 [0x45, 0]).setSp 2, by decide⟩⟩

theorem witness_CallStepRule :
    OneRegisterClauses 0x50 ∧
    (∃ s, HasWords s [0x50, 0] ∧ 255 < s.pc.toNat + 2) ∧
    (∃ s, HasWords s [0x50, 0] ∧ s.pc.toNat + 2 ≤ 255 ∧ (s.sp.toNat : Int) - 1 ≤ s.pem.toNat) ∧
    (∃ s, HasWords s [0x50, 0] ∧ s.pc.toNat + 2 ≤ 255 ∧ (s.pem.toNat : Int) < (s.sp.toNat : Int) - 1) :=
  ⟨by decide, ⟨codeAt 254 [0x50, 0], by decide⟩, ⟨(codeAt 253 [0x50, 0]).setSp 1, by decide⟩,
    ⟨(codeAt 253 [0x50, 0]).setSp 2, by decide⟩⟩

theorem witness_RetStepRule : ∃ s, HasWords s [0x11] ∧ s.pc = 255 := ⟨codeAt 255 [0x11], by decide⟩

theorem witness_ConditionalJumpStepRules :
    OneRegisterClauses 0x55 ∧ OneRegisterClauses 0x56 ∧
    (∃ s, HasWords s [0x55, 0] ∧ s.flags.e = true) ∧ (∃ s, HasWords s [0x56, 0] ∧ s.flags.e = true) ∧
    (∃ s, HasWords s [0x55, 0] ∧ s.flags.e = false) ∧ (∃ s, HasWords s [0x56, 0] ∧ s.flags.e = false) :=
  ⟨by decide, by decide, ⟨(codeAt 254 [0x55, 0]).setFlags ⟨false, false, true⟩, by decide⟩,
    ⟨(codeAt 254 [0x56, 0]).setFlags ⟨false, false, true⟩, by decide⟩, ⟨codeAt 254 [0x55, 0], by decide⟩,
    ⟨codeAt 254 [0x56, 0], by decide⟩⟩

theorem witness_HltStepRule :
    (∃ s, HasWords s [0x01] ∧ s.pc.toNat + 1 ≤ 255) ∧ (∃ s, HasWords s [0x01] ∧ 255 < s.pc.toNat + 1) :=
  ⟨⟨codeAt 254 [0x01], by decide⟩, ⟨codeAt 255 [0x01], by decide⟩⟩

theorem witness_LoadPlacesTheProgram :
    (∃ p : List Byte, p.length ≤ 244) ∧ (∃ p : List Byte, 244 < p.length) :=
  ⟨⟨List.replicate 244 1, Nat.le_of_eq List.length_replicate⟩,
    ⟨List.replicate 245 1, by rw [List.length_replicate]; decide⟩⟩

/-- A state that meets the invariant and is not the reset state: a program placed, a value on the stack. -/
def busy : State := ((codeAt 0 [0x45, 0]).memWrite 0xF4 9).setReg 0 5

theorem busy_inv : busy.Inv where
  memory := by decide
  pem := by decide
  flags := by unfold Flags.AtMostOne; decide
  faulted := by decide
  record := fun f h => by cases h
  topCell := by decide

theorem witness_StepKeepsInvariant : ∃ s t : State, s.Inv ∧ step s = .next t ∧ t.memRead 0xF3 = 5 :=
  ⟨busy, _, busy_inv, rfl, by decide⟩

/-- An address at the program's end and the top address, over one step. -/
theorem witness_ProgramRegionIsNeverWritten :
    ∃ (k : Nat) (s t : State), core.run k s = .next t ∧ t ≠ s ∧ ∃ a : Byte, a.toNat ≤ s.pem.toNat :=
  ⟨1, busy, _, rfl, by decide, 0, by decide⟩

theorem witness_OnlyPushesWriteMemory :
    ∃ (i : Instr) (s t : State) (b : Byte), exec i s = .next t ∧ t.memRead b ≠ s.memRead b :=
  ⟨.push 0, busy, _, 0xF3, rfl, by decide⟩

/-- The fall-through clause is met at the highest `pc` it admits, where the jump's target is another
address. -/
theorem witness_FlagsAreCmpAndJumpsAlone :
    (∃ (i : Instr) (s t : State), exec i s = .next t ∧ i.mnemonic ≠ .cmp) ∧
    (∃ s t : State, step s = .next t ∧ s.memRead s.pc ≠ 0xA7) ∧
    (∃ (i : Instr) (s t : State) (f : Flags), exec i s = .next t ∧ f ≠ s.flags ∧
      (i.mnemonic = .jeq ∨ i.mnemonic = .jne → f.e = s.flags.e)) ∧
    (∃ (a : Byte) (ra : Reg), a.toNat = ra.val) ∧
    (∃ (s : State) (a : Byte) (ra : Reg), a.toNat = ra.val ∧ s.pc.toNat + 2 ≤ 255 ∧ (s.reg ra).toNat ≠ s.pc.toNat + 2) ∧
    (∃ (s : State) (f : Flags), f ≠ s.flags) :=
  ⟨⟨.push 0, busy, _, rfl, by decide⟩, ⟨busy, _, rfl, by decide⟩,
    ⟨.jeq 0, busy, _, ⟨true, true, false⟩, rfl, by decide, by decide⟩, ⟨7, 7, by decide⟩,
    ⟨State.reset.setPc 253, 7, 7, by decide⟩, ⟨busy, ⟨false, true, false⟩, by decide⟩⟩

theorem witness_PemIsReadByPushesAlone :
    (∃ s t : State, step s = .next t) ∧
    (∃ (i : Instr) (s t : State), i.mnemonic ≠ .push ∧ i.mnemonic ≠ .call ∧ exec i s = .next t) :=
  ⟨⟨busy, _, rfl⟩, ⟨.pop 0, busy, _, by decide, by decide, rfl⟩⟩

theorem witness_OutputIsOnlyAppended :
    (∃ s t : State, step s = .next t ∧ t.out ≠ s.out) ∧ (∃ (k : Nat) (s t : State), core.run k s = .next t ∧ t ≠ s) ∧
    (∃ (s t : State) (a : Byte) (ra : Reg), HasWords s [0x47, a] ∧ a.toNat = ra.val ∧ step s = .next t) :=
  ⟨⟨codeAt 0 [0x47, 0], _, rfl, by decide⟩, ⟨1, busy, _, rfl, by decide⟩,
    ⟨codeAt 254 [0x47, 7], _, 7, 7, by decide, by decide, rfl⟩⟩

theorem witness_RegistersChangeOnlyWhereListed :
    ∃ (i : Instr) (s t : State) (r : Reg), exec i s = .next t ∧ t.reg r ≠ s.reg r :=
  ⟨.pop 0, busy, _, 7, rfl, by decide⟩

theorem witness_NextPcComesFromFourSources : ∃ (i : Instr) (s t : State), exec i s = .next t ∧ t.pc ≠ s.pc :=
  ⟨.jmp 0, busy, _, rfl, by decide⟩

theorem witness_FaultsArePrecise : ∃ s t : State, step s = .next t ∧ t.run = .faulted :=
  ⟨codeAt 253 [0x82, 0, 1], _, rfl, by decide⟩

theorem witness_TopAddressIsNotExecutable : ∃ s : State, s.Inv ∧ s.run = .running ∧ s.pc = 255 :=
  ⟨State.reset.setPc 255, ⟨State.reset_wf, by decide, by unfold Flags.AtMostOne; decide, by decide,
    fun f h => (by cases h), by decide⟩, by decide⟩

/-- The highest `pc`, the lowest SP, and R7 as one of the registers. -/
theorem witness_PushThenPop : ∃ (s : State) (a b : Byte) (ra rb : Reg), a.toNat = ra.val ∧ b.toNat = rb.val ∧ ra ≠ rb ∧
    s.pem.toNat + 1 < s.sp.toNat ∧ s.pc.toNat + 4 ≤ 255 :=
  ⟨(State.reset.setPc 251).setSp 2, 7, 0, 7, 0, by decide⟩

theorem witness_CallThenRet : ∃ (s : State) (a : Byte) (ra : Reg), a.toNat = ra.val ∧
    s.pem.toNat + 1 < s.sp.toNat ∧ s.pc.toNat + 2 ≤ 255 :=
  witness_PushCompletes

theorem witness_CompareThenJump :
    (∃ (s t : State) (a b c : Byte) (ra rb rc : Reg), a.toNat = ra.val ∧ b.toNat = rb.val ∧ c.toNat = rc.val ∧
      s.pc.toNat + 5 ≤ 255 ∧ exec (.cmp a b) s = .next t ∧ s.reg ra = s.reg rb) ∧
    (∃ (s t : State) (a b c : Byte) (ra rb rc : Reg), a.toNat = ra.val ∧ b.toNat = rb.val ∧ c.toNat = rc.val ∧
      s.pc.toNat + 5 ≤ 255 ∧ exec (.cmp a b) s = .next t ∧ s.reg ra ≠ s.reg rb) :=
  ⟨⟨State.reset.setPc 250, _, 0, 1, 2, 0, 1, 2, by decide, by decide, by decide, by decide, rfl, by decide⟩,
    ⟨State.reset.setPc 250, _, 0, 7, 2, 0, 7, 2, by decide, by decide, by decide, by decide, rfl, by decide⟩⟩

/-- The same state reached in two ways: a cell written and written back to 0. -/
theorem witness_DebugPortShowsAllState : ∃ s t : State, s.mem.wf ∧ t.mem.wf ∧ s.debugPort = t.debugPort :=
  ⟨busy, (busy.memWrite 0x80 1).memWrite 0x80 (busy.memRead 0x80), busy_inv.memory,
    State.memWrite_wf _ _ _ (State.memWrite_wf _ _ _ busy_inv.memory), rfl⟩

theorem witness_StatusPortTellsHowTheRunEnded :
    (∃ s : State, s.Inv ∧ s.run = .running) ∧ (∃ s : State, s.Inv ∧ s.run = .halted) ∧
    (∃ s : State, s.Inv ∧ s.run = .faulted) :=
  ⟨⟨busy, busy_inv, rfl⟩,
    ⟨busy.halt, ⟨busy_inv.memory, busy_inv.pem, busy_inv.flags, by decide, fun f h => (by cases h), busy_inv.topCell⟩, rfl⟩,
    ⟨busy.faulted .badRegister 8, ⟨busy_inv.memory, busy_inv.pem, busy_inv.flags, by decide,
      fun f h => (by cases h; exact ⟨rfl, rfl, by simp [FaultRecord.InfoFits]⟩), busy_inv.topCell⟩, rfl⟩⟩

end Sys2Proof.Tests
end

section
/-! PROOFS. Every instruction answers a next state, and so does every step of a running core (`00_scope.md` R5).
One lemma for each shared operation says that it answers a next state when the continuation it is given does. -/

namespace Sys2Proof.Machine

/-! ### The shared operations answer -/

/-- A bad register byte is a next state, so a checked operand answers when the instruction's body does. -/
theorem withReg_answers (s : State) (a : Byte) {k : Reg → Res} (hk : ∀ r, ∃ t, k r = .next t) :
    ∃ t, withReg a s k = .next t := by
  rcases withReg_cases s a k with ⟨r, _, e⟩ | ⟨_, e⟩
  · exact e ▸ hk r
  · exact ⟨_, e⟩

theorem withRegs_answers (s : State) (a b : Byte) {k : Reg → Reg → Res} (hk : ∀ r q, ∃ t, k r q = .next t) :
    ∃ t, withRegs a b s k = .next t :=
  withReg_answers s a fun r => withReg_answers s b (hk r)

theorem State.advanceThen_answers (s : State) (len : Nat) {k : State → Res} (hk : ∀ u, ∃ t, k u = .next t) :
    ∃ t, s.advanceThen len k = .next t := by
  by_cases h : s.pc.toNat + len ≤ 255
  · exact s.advanceThen_of_le len k h ▸ hk _
  · exact ⟨_, s.advanceThen_of_gt len k (Nat.lt_of_not_le h)⟩

theorem State.advance_answers (s : State) (len : Nat) : ∃ t, s.advance len = .next t :=
  s.advanceThen_answers len fun u => ⟨u, rfl⟩

theorem State.pushThen_answers (s : State) (v : Byte) {k : State → Res} (hk : ∀ u, ∃ t, k u = .next t) :
    ∃ t, s.pushThen v k = .next t := by
  rcases s.pushThen_cases v k with ⟨_, e⟩ | ⟨_, e⟩
  · exact ⟨_, e⟩
  · exact e ▸ hk _

theorem aluPair_answers (f : Byte → Byte → Byte) (a b : Byte) (s : State) : ∃ t, aluPair f a b s = .next t :=
  withRegs_answers s a b fun _ _ => State.advance_answers _ 3

theorem jumpIf_answers (c : Bool) (a : Byte) (s : State) : ∃ t, jumpIf c a s = .next t :=
  withReg_answers s a fun r => by
    cases c with
    | true => exact ⟨s.setPc (s.reg r), rfl⟩
    | false => exact s.advance_answers 2

theorem execCall_answers (a : Byte) (s : State) : ∃ t, execCall a s = .next t :=
  withReg_answers s a fun r => by
    split
    · exact s.pushThen_answers _ fun u => ⟨u.setPc (s.reg r), rfl⟩
    · exact ⟨s.faulted .addressOutOfRange (s.pc.toNat + 2), rfl⟩

/-! ### Instructions and steps answer -/

/-- No instruction faults or refuses in the host's sense, in any state (log entry 2). -/
theorem exec_answers (i : Instr) (s : State) : ∃ t, exec i s = .next t := by
  cases i with
  | ldi a _ => exact withReg_answers s a fun _ => State.advance_answers _ 3
  | prn a => exact withReg_answers s a fun _ => State.advance_answers _ 2
  | add a b => exact aluPair_answers aluAdd a b s
  | mul a b => exact aluPair_answers aluMul a b s
  | and a b => exact aluPair_answers aluAnd a b s
  | or a b => exact aluPair_answers aluOr a b s
  | xor a b => exact aluPair_answers aluXor a b s
  | not a => exact withReg_answers s a fun _ => State.advance_answers _ 2
  | shl a b => exact aluPair_answers aluShl a b s
  | shr a b => exact aluPair_answers aluShr a b s
  | push a => exact withReg_answers s a fun r => s.pushThen_answers (s.reg r) fun u => u.advance_answers 2
  | pop a => exact withReg_answers s a fun _ => State.advance_answers _ 2
  | call a => exact execCall_answers a s
  | ret => exact ⟨s.popped.setPc s.top, rfl⟩
  | cmp a b => exact withRegs_answers s a b fun _ _ => State.advance_answers _ 3
  | jmp a => exact withReg_answers s a fun r => ⟨s.setPc (s.reg r), rfl⟩
  | jeq a => exact jumpIf_answers s.flags.e a s
  | jne a => exact jumpIf_answers (!s.flags.e) a s
  | hlt => exact s.advanceThen_answers 1 fun u => ⟨u.halt, rfl⟩

/-- A decoding error is a fatal condition, so a next state (`30_encoding.md` R92, `60_exceptions.md` R193). -/
theorem State.raiseDecodeError_answers (s : State) (e : DecodeError) : ∃ t, s.raiseDecodeError e = .next t := by
  cases e with
  | unknownOpcode opc => exact ⟨s.faulted .unknownOpcode opc.toNat, rfl⟩
  | missingWord k => exact ⟨s.faulted .addressOutOfRange (s.pc.toNat + k), rfl⟩

/-- Under any opcode map, whether the words at `pc` decode or not. -/
theorem State.cycleWith_answers (M : OpcodeMap) (s : State) : ∃ t, s.cycleWith M = .next t := by
  unfold State.cycleWith
  split
  · exact exec_answers _ s
  · exact s.raiseDecodeError_answers _

/-- A RUNNING core's step is one pass of the cycle (`30_encoding.md` R94). -/
theorem stepWith_of_running (M : OpcodeMap) (s : State) (h : s.run = .running) : stepWith M s = s.cycleWith M := by
  simp [stepWith, h]

theorem step_of_running (s : State) (h : s.run = .running) : step s = s.cycleWith opcodeMap :=
  stepWith_of_running opcodeMap s h

/-- Settles O11, from the answers of the shared operations: every fatal condition they raise is a next state. -/
theorem runningCoreAlwaysSteps : Obligations.RunningCoreAlwaysSteps :=
  ⟨exec_answers, fun s h => step_of_running s h ▸ s.cycleWith_answers opcodeMap⟩

end Sys2Proof.Machine
end

section
/-! PROOFS. What an instruction and a step can do, said once: the fetch and its errors, the effect of an instruction
apart from how it ends, and the stopped core. The statements about the state cite these. -/

namespace Sys2Proof

/-! ### The length of an instruction -/

theorem Mnemonic.operandCount_le (m : Mnemonic) : m.operandCount ≤ 2 := by cases m <;> decide

theorem Instr.length_le (i : Instr) : i.length ≤ 3 := Nat.succ_le_succ i.mnemonic.operandCount_le

/-- The top bits of the core's own opcodes are the operand counts (`30_encoding.md` R85). -/
theorem opcodeCount_opcodeMap (m : Mnemonic) : opcodeCount (opcodeMap m) = m.operandCount := by cases m <;> decide

/-! ### What the decoder answers -/

/-- Operand words run out only before the last one asked for. -/
theorem takeOperands_error {n k : Nat} {ws : List Byte} {e : DecodeError} (h : takeOperands k n ws = .error e) :
    ws.length < n ∧ e = .missingWord (k + ws.length) := by
  by_cases hl : ws.length < n
  · rw [takeOperands_short hl] at h
    cases h
    exact ⟨hl, rfl⟩
  · have hok := takeOperands_append (ws.take n) (ws.drop n) k
    rw [List.take_append_drop, List.length_take_of_le (Nat.le_of_not_lt hl), h] at hok
    cases hok

/-- What decodes begins with its own opcode. -/
theorem decode_cons_ok {opc : Byte} {ws rest : List Byte} {i : Instr} (h : decode (opc :: ws) = .ok i rest) :
    opcodeMap i.mnemonic = opc := by
  simp only [decode, decodeWith] at h
  split at h
  · cases h
  · rename_i m hm
    split at h
    · cases h
    · split at h
      · rename_i ha
        cases h
        rw [(Mnemonic.assemble_eq_some ha).1, OpcodeMap.mnemonic?_eq_some hm]
      · cases h

/-- Words that begin with an opcode byte are refused for that byte, or because an operand word is missing. -/
theorem decode_cons_refused {opc : Byte} {ws : List Byte} {e : DecodeError} (h : decode (opc :: ws) = .refused e) :
    e = .unknownOpcode opc ∨ (ws.length < 2 ∧ e = .missingWord (1 + ws.length)) := by
  simp only [decode, decodeWith] at h
  split at h
  · cases h
    exact .inl rfl
  · rename_i m hm
    split at h
    · rename_i he
      cases h
      obtain ⟨hl, he⟩ := takeOperands_error he
      rw [← OpcodeMap.mnemonic?_eq_some hm, opcodeCount_opcodeMap] at hl
      exact .inr ⟨Nat.lt_of_lt_of_le hl m.operandCount_le, he⟩
    · split at h
      · cases h
      · cases h
        exact .inl rfl

end Sys2Proof

namespace Sys2Proof.Machine

/-! ### What a step can do -/

/-- Everything a step of a running core can do: fault on the fetch, or run the instruction at `pc`. -/
inductive StepEnds (s : State) : State → Prop
  /-- the byte at `pc` is no opcode (`60_exceptions.md` R193) -/
  | unknownOpcode : StepEnds s (s.faulted .unknownOpcode (s.memRead s.pc).toNat)
  /-- the first operand address above 255 is 256 (`30_encoding.md` R92) -/
  | fetchTop : StepEnds s (s.faulted .addressOutOfRange 256)
  /-- the decoded instruction runs (`30_encoding.md` R94) -/
  | runs (i : Instr) (rest : List Byte) (t : State) (hd : decode s.fetchWords = .ok i rest)
      (hx : exec i s = .next t) : StepEnds s t

/-- Where fewer than two words follow `pc` in memory, the first missing one has the address 256. -/
theorem fetchWords_missing {s : State} {ws : List Byte} (hw : s.fetchWords = s.memRead s.pc :: ws)
    (hl : ws.length < 2) : s.pc.toNat + (1 + ws.length) = 256 := by
  have hpc := s.pc.isLt
  rw [s.fetchWords_eq, List.cons.injEq] at hw
  obtain ⟨-, rfl⟩ := hw
  split at hl
  · split at hl
    · simp at hl
    · simp only [*, if_true, if_false, List.length_cons, List.length_nil]
      omega
  · simp only [*, if_false, List.length_nil]
    omega

/-- A fetch error takes one of the first two ends. -/
theorem fetchError_ends {s t : State} {e : DecodeError} (hd : decode s.fetchWords = .refused e)
    (h : s.raiseDecodeError e = .next t) : StepEnds s t := by
  obtain ⟨ws, hw⟩ : ∃ ws, s.fetchWords = s.memRead s.pc :: ws := ⟨_, s.fetchWords_eq⟩
  rw [hw] at hd
  rcases decode_cons_refused hd with rfl | ⟨hl, rfl⟩
  · cases h
    exact .unknownOpcode
  · cases h
    rw [fetchWords_missing hw hl]
    exact .fetchTop

/-- The inversion lemma of `step`: only a RUNNING core steps, and it ends in one of the ways of `StepEnds`. -/
theorem step_next {s t : State} (h : step s = .next t) : s.run = .running ∧ StepEnds s t := by
  have hrun : s.run = .running := by
    cases e : s.run <;> simp [step, stepWith, e] at h ⊢
  rw [step_of_running s hrun, State.cycleWith] at h
  refine ⟨hrun, ?_⟩
  split at h
  · rename_i i rest hd
    exact .runs i rest t hd h
  · rename_i e hd
    exact fetchError_ends hd h

/-- What runs at `pc` is an instruction of the opcode there. -/
theorem opcode_of_decode {s : State} {i : Instr} {rest : List Byte} (hd : decode s.fetchWords = .ok i rest) :
    opcodeMap i.mnemonic = s.memRead s.pc := by
  rw [s.fetchWords_eq] at hd
  exact decode_cons_ok hd

/-- The words of a short instruction that lie at `pc` are the first ones fetched (`30_encoding.md` R92). -/
theorem fetchWords_of_hasWords {s : State} {ws : List Byte} (h : HasWords s ws) (hl : ws.length ≤ 3) :
    ∃ rest, s.fetchWords = ws ++ rest := by
  obtain ⟨-, h⟩ := h
  rw [s.fetchWords_eq, State.memRead]
  match ws, hl with
  | [], _ => exact ⟨_, rfl⟩
  | [a], _ => exact ⟨_, congrArg (· :: _) (h 0 (by simp)).2⟩
  | [a, b], _ =>
    obtain ⟨hp1, h1⟩ := h 1 (by simp)
    rw [if_pos hp1]
    exact ⟨_, congrArg₂ (· :: · :: _) (h 0 (by simp)).2 h1⟩
  | [a, b, c], _ =>
    obtain ⟨hp1, h1⟩ := h 1 (by simp)
    obtain ⟨hp2, h2⟩ := h 2 (by simp)
    rw [if_pos hp1, if_pos hp2, h1, h2]
    exact ⟨[], congrArg (· :: [b, c]) (h 0 (by simp)).2⟩

/-! ### The effect of an instruction -/

/-- What an instruction has done before it ends, that is before `pc`, the run state or the fault record change. -/
inductive Effect (s : State) : Instr → State → Prop
  /-- nothing: a jump, HLT, or a fault before any effect -/
  | nothing (i : Instr) : Effect s i s
  | result (i : Instr) (a : Byte) (r : Reg) (v : Byte) (hi : resultOperand i = some a) (ha : a.toNat = r.val) :
      Effect s i (s.setReg r v)
  | emit (a v : Byte) : Effect s (.prn a) (s.emit v)
  | compare (a b p q : Byte) : Effect s (.cmp a b) (s.setFlags (compareFlags p q))
  | push (i : Instr) (a v : Byte) (hi : i = .push a ∨ i = .call a) (hs : s.pem.toNat + 1 < s.sp.toNat) :
      Effect s i (s.pushed v)
  | pop (a : Byte) (r : Reg) (ha : a.toNat = r.val) : Effect s (.pop a) (s.popped.setReg r s.top)
  | ret : Effect s .ret s.popped

theorem State.setPc_onlyRegs (s : State) (ws : List Reg) (a : Byte) : OnlyRegs ws s (s.setPc a) :=
  ⟨fun _ _ => rfl, fun _ => rfl, rfl, rfl, rfl⟩

theorem State.advance_onlyRegs {s t : State} {len : Nat} (h : s.advance len = .next t) : OnlyRegs [] s t := by
  obtain ⟨u, hu, _, ho⟩ := s.advance_spec len
  cases hu.symm.trans h
  exact ho

/-- An instruction has one effect and then changes `pc`, the run state and the fault record alone. -/
theorem Ends.effect {s t : State} {i : Instr} (h : Ends s i t) : ∃ u, Effect s i u ∧ OnlyRegs [] u t := by
  cases h with
  | badRegister _ b _ _ => exact ⟨s, .nothing i, s.faulted_onlyRegs _ _ _⟩
  | overflow _ a _ _ => exact ⟨s, .nothing i, s.faulted_onlyRegs _ _ _⟩
  | callTop a _ => exact ⟨s, .nothing _, s.faulted_onlyRegs _ _ _⟩
  | result _ a r v _ hi ha h => exact ⟨_, .result i a r v hi ha, State.advance_onlyRegs h⟩
  | emit a v _ h => exact ⟨_, .emit a v, State.advance_onlyRegs h⟩
  | compare a b p q _ h => exact ⟨_, .compare a b p q, State.advance_onlyRegs h⟩
  | push a v _ hs h => exact ⟨_, .push _ a v (.inl rfl) hs, State.advance_onlyRegs h⟩
  | pop a r _ ha h => exact ⟨_, .pop a r ha, State.advance_onlyRegs h⟩
  | call a r v _ hs => exact ⟨_, .push _ a v (.inr rfl) hs, State.setPc_onlyRegs _ _ _⟩
  | ret => exact ⟨_, .ret, State.setPc_onlyRegs _ _ _⟩
  | jump _ a r _ _ _ => exact ⟨s, .nothing i, s.setPc_onlyRegs _ _⟩
  | fallThrough _ a _ _ _ h => exact ⟨s, .nothing i, State.advance_onlyRegs h⟩
  | halt _ => exact ⟨s, .nothing _, ⟨fun _ _ => rfl, fun _ => rfl, rfl, rfl, rfl⟩⟩
  | haltTop _ => exact ⟨s, .nothing _, s.faulted_onlyRegs _ _ _⟩

theorem exec_effect {s t : State} {i : Instr} (h : exec i s = .next t) : ∃ u, Effect s i u ∧ OnlyRegs [] u t :=
  (exec_next h).effect

/-- The same for a step: nothing on a fetch fault, else the effect of the instruction whose opcode lies at `pc`. -/
theorem step_effect {s t : State} (h : step s = .next t) :
    OnlyRegs [] s t ∨ ∃ i u, opcodeMap i.mnemonic = s.memRead s.pc ∧ Effect s i u ∧ OnlyRegs [] u t := by
  obtain ⟨_, h⟩ := step_next h
  cases h with
  | unknownOpcode => exact .inl (s.faulted_onlyRegs _ _ _)
  | fetchTop => exact .inl (s.faulted_onlyRegs _ _ _)
  | runs i rest _ hd hx =>
    obtain ⟨u, hu, ho⟩ := exec_effect hx
    exact .inr ⟨i, u, opcode_of_decode hd, hu, ho⟩

/-! ### What each effect leaves unchanged -/

theorem Effect.pem {s u : State} {i : Instr} (h : Effect s i u) : u.pem = s.pem := by cases h <;> rfl

theorem Effect.flags {s u : State} {i : Instr} (h : Effect s i u) : u.flags = s.flags ∨ i.mnemonic = .cmp := by
  cases h with
  | compare => exact .inr rfl
  | _ => exact .inl rfl

theorem Effect.out {s u : State} {i : Instr} (h : Effect s i u) :
    u.out = s.out ∨ (i.mnemonic = .prn ∧ ∃ v, u.out = s.out ++ [v]) := by
  cases h with
  | emit _ v => exact .inr ⟨rfl, v, rfl⟩
  | _ => exact .inl rfl

/-! ### The stopped core, and several steps -/

theorem step_of_halted {s : State} (h : s.run = .halted) : step s = .fault .coreHalted := by
  simp [step, stepWith, h]

theorem step_of_faulted {s : State} (h : s.run = .faulted) : step s = .fault .coreFaulted := by
  simp [step, stepWith, h]

/-- A run whose first step answers a fault answers that fault. -/
theorem run_succ_of_fault {s : State} {r : Fault} (k : Nat) (h : step s = .fault r) :
    core.run (k + 1) s = .fault r := by
  have hcore : core.step s = .fault r := h
  simp only [Host.Core.run, hcore]

/-- A longer run that answers a next state takes one step and then a run. -/
theorem run_succ_next {s t : State} {k : Nat} (h : core.run (k + 1) s = .next t) :
    ∃ u, step s = .next u ∧ core.run k u = .next t := by
  simp only [Host.Core.run] at h
  split at h
  · rename_i u hu
    exact ⟨u, hu, h⟩
  · cases h
  · cases h

/-- What relates a state to itself, and carries over one step taken first, relates the ends of every run. -/
theorem run_induction {R : State → State → Prop} (refl : ∀ s, R s s)
    (cons : ∀ s u t, step s = .next u → R u t → R s t) {k : Nat} {s t : State} (h : core.run k s = .next t) :
    R s t := by
  induction k generalizing s with
  | zero =>
    cases h
    exact refl _
  | succ k ih =>
    obtain ⟨u, hu, hrun⟩ := run_succ_next h
    exact cons s u t hu (ih hrun)

end Sys2Proof.Machine
end

section
/-! PROOFS. The core's invariant: it holds at reset and every step keeps it (`10_state.md` R46). -/

namespace Sys2Proof.Machine

/-! ### The invariant of a core without a fault -/

/-- The invariant of a core that has not faulted, without the clauses about the fault record. -/
structure State.Sound (s : State) : Prop where
  memory : s.mem.wf
  pem : s.pem.toNat ≤ 244
  flags : s.flags.AtMostOne
  topCell : s.memRead 255 = 0
  run : s.run ≠ .faulted
  fault : s.fault = none

theorem State.Sound.inv {s : State} (h : s.Sound) : s.Inv where
  memory := h.memory
  pem := h.pem
  flags := h.flags
  faulted := by simp [h.run, h.fault]
  record := by simp [h.fault]
  topCell := h.topCell

/-- A running core that meets the invariant has no fault record (`10_state.md` R42). -/
theorem State.Inv.sound {s : State} (h : s.Inv) (hrun : s.run = .running) : s.Sound where
  memory := h.memory
  pem := h.pem
  flags := h.flags
  topCell := h.topCell
  run := by simp [hrun]
  fault := by simpa [hrun] using h.faulted

theorem State.reset_sound : State.reset.Sound where
  memory := State.reset_wf
  pem := by decide
  flags := by simp [State.reset, Flags.AtMostOne]
  topCell := rfl
  run := by decide
  fault := rfl

/-! ### The state's operations keep it -/

section
variable {s : State} (h : s.Sound)
include h

theorem State.Sound.setReg (r : Reg) (v : Byte) : (s.setReg r v).Sound :=
  ⟨h.memory, h.pem, h.flags, h.topCell, h.run, h.fault⟩

theorem State.Sound.setPc (a : Byte) : (s.setPc a).Sound :=
  ⟨h.memory, h.pem, h.flags, h.topCell, h.run, h.fault⟩

theorem State.Sound.emit (v : Byte) : (s.emit v).Sound :=
  ⟨h.memory, h.pem, h.flags, h.topCell, h.run, h.fault⟩

theorem State.Sound.setFlags {f : Flags} (hf : f.AtMostOne) : (s.setFlags f).Sound :=
  ⟨h.memory, h.pem, hf, h.topCell, h.run, h.fault⟩

theorem State.Sound.halt : s.halt.Sound :=
  ⟨h.memory, h.pem, h.flags, h.topCell, nofun, h.fault⟩

theorem State.Sound.popped : s.popped.Sound := h.setReg _ _

/-- A push that passes the guard writes below 255, so the top cell stays 0 (`20_memory.md` R66). -/
theorem State.Sound.pushed (hs : s.pem.toNat + 1 < s.sp.toNat) (v : Byte) : (s.pushed v).Sound where
  memory := State.memWrite_wf (s.setSp (s.sp - 1)) _ v h.memory
  pem := h.pem
  flags := h.flags
  topCell := by
    have hlt := (s.pushed_address hs).2
    have hne : (255 : Byte) ≠ s.sp - 1 := fun e => absurd (e ▸ hlt) (by decide)
    rw [s.pushed_memRead, if_neg hne, h.topCell]
  run := h.run
  fault := h.fault

/-- A fault record that is true to the state makes the invariant (`60_exceptions.md` R191, R195). -/
theorem State.Sound.faulted_inv {c : Cause} {n : Nat}
    (hi : FaultRecord.InfoFits ⟨c, s.pc, s.memRead s.pc, n⟩ s) : (s.faulted c n).Inv where
  memory := h.memory
  pem := h.pem
  flags := h.flags
  faulted := by simp
  record := by
    rintro _ ⟨⟩
    exact ⟨rfl, rfl, hi⟩
  topCell := h.topCell

/-- An address just above memory fits the record (log entry 7). -/
theorem State.Sound.addressFault_inv {n : Nat} (hlo : 256 ≤ n) (hhi : n ≤ 258) :
    (s.faulted .addressOutOfRange n).Inv :=
  h.faulted_inv ⟨hlo, hhi⟩

/-- An advance of at most three words forms an address of at most 258, the bound on the record's info. -/
theorem State.Sound.advance_inv {t : State} {len : Nat} (hl : len ≤ 3) (ha : s.advance len = .next t) : t.Inv := by
  rcases State.advance_next ha with ⟨-, rfl⟩ | ⟨htop, rfl⟩
  · exact (h.setPc _).inv
  · have hpc := s.pc.isLt
    exact h.addressFault_inv (by omega) (by omega)

end

/-! ### Every instruction and every step keep it -/

theorem Ends.inv {s t : State} {i : Instr} (h : s.Sound) (he : Ends s i t) : t.Inv := by
  have hpc := s.pc.isLt
  cases he with
  | badRegister _ b h8 _ => exact h.faulted_inv ⟨h8, Nat.le_of_lt_succ b.isLt⟩
  | overflow _ _ _ hs => exact h.faulted_inv ⟨rfl, hs⟩
  | callTop _ htop => exact h.addressFault_inv (by omega) (by omega)
  | result _ _ r v _ _ _ ha => exact (h.setReg r v).advance_inv i.length_le ha
  | emit _ v _ ha => exact (h.emit v).advance_inv (by decide) ha
  | compare _ _ p q _ ha => exact (h.setFlags (compareFlags_atMostOne p q)).advance_inv (by decide) ha
  | push _ v _ hs ha => exact (h.pushed hs v).advance_inv (by decide) ha
  | pop _ r _ _ ha => exact (h.popped.setReg r _).advance_inv (by decide) ha
  | call _ r v _ hs => exact ((h.pushed hs v).setPc _).inv
  | ret => exact (h.popped.setPc _).inv
  | jump _ _ r _ _ _ => exact (h.setPc _).inv
  | fallThrough _ _ _ _ _ ha => exact h.advance_inv (by decide) ha
  | halt _ => exact (h.setPc _).halt.inv
  | haltTop htop => exact h.addressFault_inv (by omega) (by omega)

theorem StepEnds.inv {s t : State} (h : s.Sound) (he : StepEnds s t) : t.Inv := by
  cases he with
  | unknownOpcode => exact h.faulted_inv rfl
  | fetchTop => exact h.addressFault_inv (by decide) (by decide)
  | runs _ _ _ _ hx => exact (exec_next hx).inv h

/-- Settles O41: only a running core steps, and every way a step can end keeps the invariant. -/
theorem stepKeepsInvariant : Obligations.StepKeepsInvariant := by
  intro s t h hstep
  obtain ⟨hrun, he⟩ := step_next hstep
  exact he.inv (h.sound hrun)

/-- Settles O40: the reset state has no fault, and its memory is empty. -/
theorem invariantAtReset : Obligations.InvariantAtReset := State.reset_sound.inv

end Sys2Proof.Machine
end

section
/-! PROOFS. What a step does to the output and the registers, the reset state, and the stopped core (`10_state.md` R31,
R33, R41, R43, R46). -/

namespace Sys2Proof.Machine

/-! ### Reset and the stopped core -/

/-- Settles O37, from the literal register file of reset. -/
theorem resetRegisters : Obligations.ResetRegisters := by
  unfold Obligations.ResetRegisters
  decide

/-- Settles O38, field by field. -/
theorem resetState : Obligations.ResetState :=
  ⟨rfl, rfl, rfl, rfl, fun _ => rfl, rfl, rfl, rfl, rfl, rfl⟩

/-- Settles O10: the first step already answers the fault. -/
theorem stoppedCoreTakesNoStep : Obligations.StoppedCoreTakesNoStep :=
  fun _ k => ⟨fun h => run_succ_of_fault k (step_of_halted h), fun h => run_succ_of_fault k (step_of_faulted h)⟩

/-! ### The output -/

theorem step_out {s t : State} (h : step s = .next t) :
    t.out = s.out ∨ (s.memRead s.pc = 0x47 ∧ ∃ v, t.out = s.out ++ [v]) := by
  rcases step_effect h with ho | ⟨i, u, hop, hu, ho⟩
  · exact .inl ho.out
  · rw [ho.out, ← hop]
    exact hu.out.imp_right fun ⟨hm, hv⟩ => ⟨hm ▸ rfl, hv⟩

/-- PRN lying at `pc` is what a step runs. -/
theorem step_of_prn {s : State} {a : Byte} (h : HasWords s [0x47, a]) : step s = execPrn a s := by
  obtain ⟨rest, hw⟩ := fetchWords_of_hasWords h (by simp)
  have hd : decodeWith opcodeMap s.fetchWords = .ok (.prn a) rest := hw ▸ rfl
  simp only [step_of_running s h.1, State.cycleWith, hd, exec]

theorem execPrn_out {s t : State} {a : Byte} {ra : Reg} (ha : a.toNat = ra.val) (h : execPrn a s = .next t) :
    t.out = s.out ++ [s.reg ra] := by
  rw [execPrn, withReg_of_eq s a ra _ ha] at h
  exact (State.advance_onlyRegs h).out

/-- Settles O46: an effect appends one value for PRN and none otherwise, and a run composes its steps. -/
theorem outputIsOnlyAppended : Obligations.OutputIsOnlyAppended := by
  refine ⟨fun _ _ => step_out, fun k s t => ?_, fun s t a ra hw ha h => execPrn_out ha (step_of_prn hw ▸ h), rfl⟩
  refine run_induction (R := fun s t => ∃ vs, t.out = s.out ++ vs) (fun s => ⟨[], by simp⟩) ?_
  rintro s u t h ⟨vs, hvs⟩
  rcases step_out h with e | ⟨-, v, e⟩
  · exact ⟨vs, by rw [hvs, e]⟩
  · exact ⟨v :: vs, by simp [hvs, e]⟩

/-! ### The registers -/

/-- The destination of a result is listed as written (`10_state.md` R31). -/
theorem mayWrite_of_resultOperand {i : Instr} {a : Byte} {r : Reg} (hi : resultOperand i = some a)
    (ha : a.toNat = r.val) : mayWrite i r := by
  cases i <;> cases hi <;> exact ha

theorem Effect.reg {s u : State} {i : Instr} (h : Effect s i u) {q : Reg} (hq : u.reg q ≠ s.reg q) :
    mayWrite i q := by
  cases h with
  | nothing => exact absurd rfl hq
  | result _ a r v hi ha =>
    by_cases e : q = r
    · exact e ▸ mayWrite_of_resultOperand hi ha
    · exact absurd (s.setReg_reg_ne r q v e) hq
  | emit => exact absurd rfl hq
  | compare => exact absurd rfl hq
  | push _ a v hi _ =>
    have e : q = 7 := by_contra fun e => hq ((s.pushed_reg v q).trans (if_neg e))
    rcases hi with rfl | rfl <;> exact e
  | pop a r ha =>
    by_cases e : q = r
    · exact .inl (e ▸ ha)
    · rw [State.setReg_reg_ne _ r q _ e] at hq
      exact .inr (by_contra fun e' => hq ((s.popped_reg q).trans (if_neg e')))
  | ret => exact by_contra fun e => hq ((s.popped_reg q).trans (if_neg e))

/-- Settles O47: an instruction changes the registers by its effect alone. -/
theorem registersChangeOnlyWhereListed : Obligations.RegistersChangeOnlyWhereListed := by
  intro i s t r h hr
  obtain ⟨u, hu, ho⟩ := exec_effect h
  exact hu.reg (ho.regs r (by simp) ▸ hr)

end Sys2Proof.Machine
end

section
/-! PROOFS. What an instruction reads of the flags and of the program end marker (`10_state.md` R36, R40). An update of
the state that the shared operations do not see commutes with every instruction that does not read it: said once for any
such update, and used for the flags and for the marker. -/

namespace Sys2Proof.Machine

/-! ### Updates that the shared operations do not see -/

/-- An answer with its next state updated. -/
def mapNext (u : State → State) : Res → Res
  | .next t => .next (u t)
  | .fault r => .fault r
  | .refused r => .refused r

/-- An update that leaves what the shared operations read, and commutes with what they write. -/
structure Unseen (u : State → State) : Prop where
  pc : ∀ s, (u s).pc = s.pc
  reg : ∀ s r, (u s).reg r = s.reg r
  memRead : ∀ s a, (u s).memRead a = s.memRead a
  setReg : ∀ s r v, (u s).setReg r v = u (s.setReg r v)
  setPc : ∀ s a, (u s).setPc a = u (s.setPc a)
  memWrite : ∀ s a v, (u s).memWrite a v = u (s.memWrite a v)
  emit : ∀ s v, (u s).emit v = u (s.emit v)
  halt : ∀ s, (u s).halt = u s.halt
  faulted : ∀ s c n, (u s).faulted c n = u (s.faulted c n)

/-- The state with another program end marker. -/
def State.setPem (s : State) (p : Byte) : State := { s with pem := p }

theorem unseen_setFlags (f : Flags) : Unseen fun s => s.setFlags f :=
  ⟨fun _ => rfl, fun _ _ => rfl, fun _ _ => rfl, fun _ _ _ => rfl, fun _ _ => rfl, fun _ _ _ => rfl, fun _ _ => rfl,
    fun _ => rfl, fun _ _ _ => rfl⟩

theorem unseen_setPem (p : Byte) : Unseen fun s => s.setPem p :=
  ⟨fun _ => rfl, fun _ _ => rfl, fun _ _ => rfl, fun _ _ _ => rfl, fun _ _ => rfl, fun _ _ _ => rfl, fun _ _ => rfl,
    fun _ => rfl, fun _ _ _ => rfl⟩

section
variable {u : State → State} (hu : Unseen u) (s : State)
include hu

/-! ### The shared operations commute with them -/

theorem Unseen.sp : (u s).sp = s.sp := hu.reg s _

theorem Unseen.top : (u s).top = s.top := by rw [State.top, hu.sp, hu.memRead, State.top]

theorem Unseen.popped : (u s).popped = u s.popped := by
  rw [State.popped, State.setSp, hu.sp, hu.setReg]
  rfl

theorem Unseen.pushed (v : Byte) : (u s).pushed v = u (s.pushed v) := by
  rw [State.pushed, State.setSp, hu.sp, hu.setReg, hu.memWrite]
  rfl

theorem Unseen.withReg_map {b : Byte} {k k' : Reg → Res} (hk : ∀ r, k' r = mapNext u (k r)) :
    withReg b (u s) k' = mapNext u (withReg b s k) := by
  rcases withReg_cases s b k with ⟨r, hr, e⟩ | ⟨h8, e⟩
  · rw [e, withReg_of_eq (u s) b r k' hr, hk]
  · rw [e, withReg_of_ge (u s) b k' h8, hu.faulted]
    rfl

theorem Unseen.withRegs_map {a b : Byte} {k k' : Reg → Reg → Res} (hk : ∀ r q, k' r q = mapNext u (k r q)) :
    withRegs a b (u s) k' = mapNext u (withRegs a b s k) :=
  hu.withReg_map s fun r => hu.withReg_map s (hk r)

theorem Unseen.advanceThen_map {len : Nat} {k k' : State → Res} (hk : ∀ t, k' (u t) = mapNext u (k t)) :
    (u s).advanceThen len k' = mapNext u (s.advanceThen len k) := by
  by_cases h : s.pc.toNat + len ≤ 255
  · rw [s.advanceThen_of_le len k h, State.advanceThen_of_le _ len k' ((hu.pc s).symm ▸ h), hu.pc, hu.setPc, hk]
  · have h := Nat.lt_of_not_le h
    rw [s.advanceThen_of_gt len k h, State.advanceThen_of_gt _ len k' ((hu.pc s).symm ▸ h), hu.pc, hu.faulted]
    rfl

theorem Unseen.advance_map (len : Nat) : (u s).advance len = mapNext u (s.advance len) :=
  hu.advanceThen_map s fun _ => rfl

theorem Unseen.pushThen_map {v : Byte} {k k' : State → Res} (hf : (u s).stackFull = s.stackFull)
    (hk : ∀ t, k' (u t) = mapNext u (k t)) : (u s).pushThen v k' = mapNext u (s.pushThen v k) := by
  rw [State.pushThen, State.pushThen, hf]
  split
  · rw [State.raise, State.raise, hu.sp, hu.faulted]
    rfl
  · rw [hu.pushed, hk]

/-! ### The instructions commute with them -/

/-- A register write and then the advance: how LDI, POP and the ALU instructions end. -/
theorem Unseen.setReg_advance_map (r : Reg) (v : Byte) (len : Nat) :
    ((u s).setReg r v).advance len = mapNext u ((s.setReg r v).advance len) := by
  rw [hu.setReg, hu.advance_map]

theorem Unseen.aluPair_map (f : Byte → Byte → Byte) (a b : Byte) :
    aluPair f a b (u s) = mapNext u (aluPair f a b s) :=
  hu.withRegs_map s fun r q => by rw [hu.reg, hu.reg, hu.setReg_advance_map]

theorem Unseen.jumpIf_map {c c' : Bool} (a : Byte) (hc : c' = c) : jumpIf c' a (u s) = mapNext u (jumpIf c a s) :=
  hu.withReg_map s fun r => by
    subst hc
    cases c' with
    | true => exact congrArg Host.Outcome.next (by rw [hu.reg, hu.setPc])
    | false => exact hu.advance_map s 2

theorem Unseen.execCall_map (a : Byte) (hf : (u s).stackFull = s.stackFull) :
    execCall a (u s) = mapNext u (execCall a s) :=
  hu.withReg_map s fun r => by
    rw [hu.pc, hu.reg]
    split
    · exact hu.pushThen_map s hf fun t => congrArg Host.Outcome.next (hu.setPc t _)
    · exact congrArg Host.Outcome.next (hu.faulted s _ _)

/-- An unseen update commutes with every instruction, if PUSH and CALL do not see it in the guard, CMP not in the
flags, and the conditional jumps not in `E`. -/
theorem Unseen.exec_map (i : Instr) (hguard : i.mnemonic = .push ∨ i.mnemonic = .call → (u s).stackFull = s.stackFull)
    (hcmp : i.mnemonic = .cmp → ∀ f, (u s).setFlags f = u (s.setFlags f))
    (hjump : i.mnemonic = .jeq ∨ i.mnemonic = .jne → (u s).flags.e = s.flags.e) :
    exec i (u s) = mapNext u (exec i s) := by
  cases i with
  | ldi a imm => exact hu.withReg_map s fun r => hu.setReg_advance_map s r imm 3
  | prn a => exact hu.withReg_map s fun r => by rw [hu.reg, hu.emit, hu.advance_map]
  | add a b => exact hu.aluPair_map s aluAdd a b
  | mul a b => exact hu.aluPair_map s aluMul a b
  | and a b => exact hu.aluPair_map s aluAnd a b
  | or a b => exact hu.aluPair_map s aluOr a b
  | xor a b => exact hu.aluPair_map s aluXor a b
  | not a => exact hu.withReg_map s fun r => by rw [hu.reg, hu.setReg_advance_map]
  | shl a b => exact hu.aluPair_map s aluShl a b
  | shr a b => exact hu.aluPair_map s aluShr a b
  | push a =>
    exact hu.withReg_map s fun r => by
      rw [hu.reg]
      exact hu.pushThen_map s (hguard (.inl rfl)) fun t => hu.advance_map t 2
  | pop a => exact hu.withReg_map s fun r => by rw [hu.top, hu.popped, hu.setReg_advance_map]
  | call a => exact hu.execCall_map s a (hguard (.inr rfl))
  | ret => exact congrArg Host.Outcome.next (by rw [hu.top, hu.popped, hu.setPc])
  | cmp a b => exact hu.withRegs_map s fun r q => by rw [hu.reg, hu.reg, hcmp rfl, hu.advance_map]
  | jmp a => exact hu.withReg_map s fun r => congrArg Host.Outcome.next (by rw [hu.reg, hu.setPc])
  | jeq a => exact hu.jumpIf_map s a (hjump (.inl rfl))
  | jne a => exact hu.jumpIf_map s a (congrArg Bool.not (hjump (.inr rfl)))
  | hlt =>
    exact hu.advanceThen_map s (k := fun t => .next t.halt) (k' := fun t => .next t.halt) fun t =>
      congrArg Host.Outcome.next (hu.halt t)

end

/-! ### The program end marker -/

theorem step_pem {s t : State} (h : step s = .next t) : t.pem = s.pem := by
  rcases step_effect h with ho | ⟨i, u, -, hu, ho⟩
  · exact ho.pem
  · rw [ho.pem, hu.pem]

/-- Settles O45: no effect writes the marker, and only the guard of PUSH and CALL sees it. -/
theorem pemIsReadByPushesAlone : Obligations.PemIsReadByPushesAlone := by
  refine ⟨fun _ _ => step_pem, fun i s t p hpush hcall h => ?_⟩
  have hexec := (unseen_setPem p).exec_map s i (fun hi => absurd hi (not_or.mpr ⟨hpush, hcall⟩)) (fun _ _ => rfl)
    (fun _ => rfl)
  rw [h] at hexec
  exact hexec

/-! ### The flags -/

theorem exec_flags {s t : State} {i : Instr} (h : exec i s = .next t) (hi : i.mnemonic ≠ .cmp) :
    t.flags = s.flags := by
  obtain ⟨u, hu, ho⟩ := exec_effect h
  rw [ho.flags, hu.flags.resolve_right hi]

theorem step_flags {s t : State} (h : step s = .next t) (hop : s.memRead s.pc ≠ 0xA7) : t.flags = s.flags := by
  rcases step_effect h with ho | ⟨i, u, hi, hu, ho⟩
  · exact ho.flags
  · have hne : i.mnemonic ≠ .cmp := fun e => hop (hi ▸ e ▸ rfl)
    rw [ho.flags, hu.flags.resolve_right hne]

/-- An instruction other than CMP does the same with other flags, if a conditional jump finds the same `E`. -/
theorem exec_setFlags {s t : State} {i : Instr} {f : Flags} (hi : i.mnemonic ≠ .cmp)
    (hf : i.mnemonic = .jeq ∨ i.mnemonic = .jne → f.e = s.flags.e) (h : exec i s = .next t) :
    exec i (s.setFlags f) = .next (t.setFlags f) := by
  have hexec := (unseen_setFlags f).exec_map s i (fun _ => rfl) (fun e => absurd e hi) hf
  rw [h] at hexec
  exact hexec

/-- CMP with other flags ends in the same state, or with a bad register and those flags kept. -/
theorem execCmp_setFlags {s t : State} {a b : Byte} (f : Flags) (h : execCmp a b s = .next t) :
    execCmp a b (s.setFlags f) = .next t ∨
      ((Instr.cmp a b).wf = false ∧ execCmp a b (s.setFlags f) = .next (t.setFlags f)) := by
  unfold execCmp at h ⊢
  rcases withRegs_cases s a b fun r q => (s.setFlags (compareFlags (s.reg r) (s.reg q))).advance 3 with
    ⟨r, q, ha, hb, e⟩ | ⟨ha, e⟩ | ⟨ha, hb, e⟩
  · rw [withRegs_of_eq _ a b r q _ ha hb]
    exact .inl (e.symm.trans h)
  · cases e.symm.trans h
    exact .inr ⟨by simp [Instr.wf, Instr.registerOperands, isRegister, ha], withRegs_of_ge_left _ a b _ ha⟩
  · cases e.symm.trans h
    exact .inr ⟨by simp [Instr.wf, Instr.registerOperands, isRegister, hb], withRegs_of_ge_right _ a b _ ha hb⟩

theorem jumpIf_taken (s : State) {a : Byte} {ra : Reg} (ha : a.toNat = ra.val) :
    ∃ t, jumpIf true a s = .next t ∧ t.pc = s.reg ra :=
  ⟨_, withReg_of_eq s a ra _ ha, rfl⟩

theorem jumpIf_not_taken (s : State) {a : Byte} {ra : Reg} (ha : a.toNat = ra.val) (hp : s.pc.toNat + 2 ≤ 255) :
    ∃ t, jumpIf false a s = .next t ∧ t.pc.toNat = s.pc.toNat + 2 :=
  ⟨_, (withReg_of_eq s a ra _ ha).trans (s.advanceThen_of_le 2 _ hp), s.toNat_seqPc 2 hp⟩

/-- The debug port's byte has one bit for each flag (`10_state.md` R38). -/
theorem Flags.toByte_injective : Function.Injective Flags.toByte := by
  rintro ⟨l, g, e⟩ ⟨l', g', e'⟩
  revert l g e l' g' e'
  decide

/-- With other flags, an instruction does the same to everything else. -/
theorem exec_other_flags {s t : State} {i : Instr} {f : Flags} (h : exec i s = .next t)
    (hf : i.mnemonic = .jeq ∨ i.mnemonic = .jne → f.e = s.flags.e) :
    ∃ t', exec i (s.setFlags f) = .next t' ∧ t'.setFlags t.flags = t ∧
      (i.mnemonic ≠ .cmp → t'.flags = f) ∧ (i.mnemonic = .cmp → t'.flags = t.flags ∨ i.wf = false) := by
  by_cases hi : i.mnemonic = .cmp
  · obtain ⟨a, b, rfl⟩ : ∃ a b, i = .cmp a b := by cases i <;> cases hi; exact ⟨_, _, rfl⟩
    rcases execCmp_setFlags f h with e | ⟨hwf, e⟩
    · exact ⟨t, e, rfl, absurd hi, fun _ => .inl rfl⟩
    · exact ⟨_, e, rfl, absurd hi, fun _ => .inr hwf⟩
  · exact ⟨_, exec_setFlags hi hf h, rfl, fun _ => rfl, fun e => absurd e hi⟩

/-- Settles O44: only CMP has an effect on the flags, other flags are an update that only the conditional jumps see, in
`E`, and the debug port's byte tells any two triples apart. -/
theorem flagsAreCmpAndJumpsAlone : Obligations.FlagsAreCmpAndJumpsAlone := by
  refine ⟨fun _ _ _ => exec_flags, fun _ _ => step_flags, fun _ _ _ _ => exec_other_flags, ?_, ?_⟩
  · intro s a ra l g ha
    exact ⟨jumpIf_taken _ ha, jumpIf_taken _ ha, fun hp => ⟨jumpIf_not_taken _ ha hp, jumpIf_not_taken _ ha hp⟩⟩
  · exact fun n s f => ⟨rfl, fun hne h => hne (Flags.toByte_injective h)⟩

end Sys2Proof.Machine
end

section
/-! PROOFS. What an instruction does to memory (`20_memory.md` R61, R74): only a push that passes the guard writes a
cell. -/

namespace Sys2Proof.Machine

theorem Effect.memRead {s u : State} {i : Instr} (h : Effect s i u) {b : Byte} (hb : u.memRead b ≠ s.memRead b) :
    (i.mnemonic = .push ∨ i.mnemonic = .call) ∧ b = s.sp - 1 ∧ s.pem.toNat < b.toNat ∧ b.toNat < 255 := by
  cases h with
  | push _ a v hi hs =>
    have e : b = s.sp - 1 := by_contra fun e => hb ((s.pushed_memRead v b).trans (if_neg e))
    exact ⟨hi.imp (congrArg Instr.mnemonic) (congrArg Instr.mnemonic), e, e ▸ s.pushed_address hs⟩
  | _ => exact absurd rfl hb

/-- Settles O43: an instruction changes memory by its effect alone. -/
theorem onlyPushesWriteMemory : Obligations.OnlyPushesWriteMemory := by
  intro i s t b h hb
  obtain ⟨u, hu, ho⟩ := exec_effect h
  exact hu.memRead (ho.mem b ▸ hb)

end Sys2Proof.Machine
end

section
/-! PROOFS. The decoder and the encoder under any opcode map (`30_encoding.md` R80 to R89): what decodes, what is
refused, and how many bytes a map leaves without a meaning. -/

namespace Sys2Proof

variable {M : OpcodeMap}

/-! ### What the decoder answers -/

/-- The encoding of an instruction decodes to it, and the words after it are left. -/
theorem decodeWith_encodeWith (hM : M.Valid) (i : Instr) (rest : List Byte) :
    decodeWith M (encodeWith M i ++ rest) = .ok i rest := by
  have hcount : opcodeCount (M i.mnemonic) = i.operands.length := (hM.topBits _).trans i.operands_length.symm
  simp [encodeWith, decodeWith, OpcodeMap.mnemonic?_self hM, hcount, takeOperands_append, i.assemble_operands]

/-- What decodes is spelled out by the words, and the opcode's top bits count its operand bytes. Neither needs a
constraint on the map: the decoder takes as many words as the top bits say, and assembles no other number. -/
theorem decodeWith_ok {ws rest : List Byte} {i : Instr} (h : decodeWith M ws = .ok i rest) :
    ws = encodeWith M i ++ rest ∧ i.operands.length = opcodeCount (M i.mnemonic) := by
  match ws, h with
  | opc :: ws, h =>
    simp only [decodeWith] at h
    split at h
    · cases h
    · rename_i m hm
      split at h
      · cases h
      · rename_i ops rest' htake
        split at h
        · rename_i hi
          cases h
          obtain ⟨rfl, rfl⟩ := Mnemonic.assemble_eq_some hi
          obtain ⟨rfl, hlen⟩ := takeOperands_ok htake
          obtain rfl := OpcodeMap.mnemonic?_eq_some hm
          exact ⟨rfl, hlen⟩
        · cases h

/-- A byte outside the map is refused, whatever follows it (`30_encoding.md` R88). -/
theorem decodeWith_unknownOpcode {opc : Byte} (h : ∀ m, M m ≠ opc) (ws : List Byte) :
    decodeWith M (opc :: ws) = .refused (.unknownOpcode opc) := by
  simp [decodeWith, OpcodeMap.mnemonic?_eq_none.mpr h]

/-- Too few words after an opcode: the first missing one is named (`30_encoding.md` R92). -/
theorem decodeWith_missingWord (hM : M.Valid) {m : Mnemonic} {ws : List Byte} (h : ws.length < m.operandCount) :
    decodeWith M (M m :: ws) = .refused (.missingWord (1 + ws.length)) := by
  simp [decodeWith, OpcodeMap.mnemonic?_self hM, hM.topBits, takeOperands_short h]

/-- Settles O3: the map is injective, and its top bits count just the operands that were written. -/
theorem encodeThenDecode : Obligations.EncodeThenDecode :=
  fun _ hM => decodeWith_encodeWith hM

/-- Settles O4, by the inversion lemma of the decoder. -/
theorem decodeThenEncode : Obligations.DecodeThenEncode :=
  fun _ _ _ _ h => (decodeWith_ok h).1

/-! ### The core's own map -/

theorem opcodeMap_valid : opcodeMap.Valid where
  injective m m' h := by
    have hfind : ∀ m, opcodeMap.mnemonic? (opcodeMap m) = some m := by intro m; cases m <;> rfl
    exact Option.some.inj ((hfind m).symm.trans (h ▸ hfind m'))
  topBits := opcodeCount_opcodeMap

/-- Settles O1: looking the byte of a mnemonic up in the table gives the mnemonic back, so no byte is shared. -/
theorem opcodeMapMeetsConstraints : Obligations.OpcodeMapMeetsConstraints := opcodeMap_valid

/-- Settles O2, by running the decoder on the written words. -/
theorem tableWordsDecode : Obligations.TableWordsDecode :=
  ⟨rfl, rfl, rfl, rfl, rfl, rfl, rfl, rfl, rfl, rfl, rfl, rfl⟩

/-! ### The top bits of an opcode -/

theorem opcodeCount_eq_div (opc : Byte) : opcodeCount opc = opc.toNat / 64 := by
  have := opc.isLt
  rw [opcodeCount, BitVec.extractLsb, BitVec.extractLsb'_toNat, Nat.shiftRight_eq_div_pow]
  omega

theorem opcodeMap_div (m : Mnemonic) : (opcodeMap m).toNat / 64 = m.operandCount :=
  opcodeCount_eq_div _ ▸ opcodeCount_opcodeMap m

theorem opcodeMap_div_ne_three (m : Mnemonic) : (opcodeMap m).toNat / 64 ≠ 3 := by
  have := m.operandCount_le
  rw [opcodeMap_div]
  omega

/-- The first byte of what decodes gives its length (`30_encoding.md` R81). -/
theorem decode_length {opc : Byte} {ws rest : List Byte} {i : Instr} (h : decode (opc :: ws) = .ok i rest) :
    i.operands.length = opc.toNat / 64 ∧ i.length = opc.toNat / 64 + 1 ∧
      (opc :: ws).length = rest.length + (opc.toNat / 64 + 1) := by
  obtain ⟨hws, hlen⟩ := decodeWith_ok h
  rw [decode_cons_ok h, opcodeCount_eq_div] at hlen
  refine ⟨hlen, by rw [Instr.length, ← i.operands_length, hlen], ?_⟩
  rw [hws, ← hlen, encodeWith, List.length_append, List.length_cons, Nat.add_comm]

/-! ### How many bytes a map leaves without a meaning -/

theorem OpcodeMap.mnemonic?_isSome {opc : Byte} : (M.mnemonic? opc).isSome ↔ ∃ m, M m = opc := by
  rw [← not_iff_not, Option.not_isSome_iff_eq_none, OpcodeMap.mnemonic?_eq_none, not_exists]

/-- The recognized byte values are those of the 19 mnemonics, each once. -/
theorem recognized_perm (hM : M.Valid) :
    ((List.range 256).filter fun b => (M.mnemonic? (BitVec.ofNat 8 b)).isSome).Perm
      (Mnemonic.all.map fun m => (M m).toNat) := by
  have hnodup : (Mnemonic.all.map fun m => (M m).toNat).Nodup :=
    List.Nodup.map (fun m m' h => hM.injective m m' (BitVec.eq_of_toNat_eq h)) (by decide)
  refine (List.perm_ext_iff_of_nodup (List.nodup_range.filter _) hnodup).mpr fun b => ?_
  simp only [List.mem_filter, List.mem_range, OpcodeMap.mnemonic?_isSome, List.mem_map]
  constructor
  · rintro ⟨hb, m, hm⟩
    exact ⟨m, m.mem_all, by rw [hm, BitVec.toNat_ofNat, Nat.mod_eq_of_lt hb]⟩
  · rintro ⟨m, -, rfl⟩
    exact ⟨(M m).isLt, m, by simp⟩

/-- Any map that meets R85 leaves 256 - 19 byte values unrecognized. -/
theorem unrecognized_length (hM : M.Valid) :
    ((List.range 256).filter fun b => (M.mnemonic? (BitVec.ofNat 8 b)).isNone).length = 237 := by
  have hsome : ((List.range 256).filter fun b => (M.mnemonic? (BitVec.ofNat 8 b)).isSome).length = 19 := by
    rw [(recognized_perm hM).length_eq, List.length_map]
    rfl
  have hsplit := List.length_eq_length_filter_add (l := List.range 256) fun b => (M.mnemonic? (BitVec.ofNat 8 b)).isSome
  simp only [List.length_range, hsome, Option.not_isSome] at hsplit
  omega

end Sys2Proof
end

section
/-! PROOFS. The cycle under any opcode map (`30_encoding.md` R81, R85, R88, R92, R94): it runs what lies at `pc`, and a
fetch that holds no instruction is a clean fault. -/

namespace Sys2Proof.Machine

variable {M : OpcodeMap} {s : State}

/-! ### Running what lies at `pc` -/

theorem stepWith_of_decode {i : Instr} {rest : List Byte} (hrun : s.run = .running)
    (hd : decodeWith M s.fetchWords = .ok i rest) : stepWith M s = exec i s := by
  simp only [stepWith_of_running M s hrun, State.cycleWith, hd]

/-- The words that lie at `pc` are among those fetched, and the encoding decodes whatever follows it. -/
theorem stepWith_of_encoding (hM : M.Valid) {i : Instr} (h : HasWords s (encodeWith M i)) :
    stepWith M s = exec i s := by
  have hlen : (encodeWith M i).length ≤ 3 := by
    simpa [encodeWith, i.operands_length, Instr.length] using i.length_le
  obtain ⟨rest, hw⟩ := fetchWords_of_hasWords h hlen
  exact stepWith_of_decode h.1 (hw ▸ decodeWith_encodeWith hM i rest)

/-- Settles O6, at the core's own map. -/
theorem stepRunsTheInstructionAtPc : Obligations.StepRunsTheInstructionAtPc :=
  ⟨fun _ _ _ => stepWith_of_decode, fun _ _ => stepWith_of_encoding opcodeMap_valid⟩

/-! ### A fetch that holds no instruction -/

theorem stepWith_of_refused {e : DecodeError} (hrun : s.run = .running)
    (hd : decodeWith M s.fetchWords = .refused e) : stepWith M s = s.raiseDecodeError e := by
  simp only [stepWith_of_running M s hrun, State.cycleWith, hd]

/-- A byte outside the map faults with no operand fetched (`60_exceptions.md` R193). -/
theorem stepWith_unknownOpcode (hrun : s.run = .running) (h : ∀ m, M m ≠ s.memRead s.pc) :
    ∃ t, stepWith M s = .next t ∧ FaultsCleanly s t .unknownOpcode (s.memRead s.pc).toNat := by
  have hd : decodeWith M s.fetchWords = .refused (.unknownOpcode (s.memRead s.pc)) :=
    s.fetchWords_eq ▸ decodeWith_unknownOpcode h _
  exact ⟨_, stepWith_of_refused hrun hd, s.faulted_faultsCleanly _ _⟩

/-- Settles O7: what was encoded decodes in the fetch, and a byte outside the map is an unknown opcode. -/
theorem everyOpcodeMapRuns : Obligations.EveryOpcodeMapRuns :=
  fun _ hM _ => ⟨fun _ => stepWith_of_encoding hM, stepWith_unknownOpcode⟩

/-- Settles O5: no byte with 3 in its top bits is in the map, so it is an unknown opcode. -/
theorem topBitsGiveTheLength : Obligations.TopBitsGiveTheLength :=
  ⟨fun _ _ _ _ => decode_length, opcodeMap_div_ne_three, fun _ hrun h3 =>
    stepWith_unknownOpcode hrun fun m hm => opcodeMap_div_ne_three m (hm ▸ h3)⟩

/-- Settles O8, by counting the recognized bytes. -/
theorem unknownOpcodeIsFatal : Obligations.UnknownOpcodeIsFatal :=
  ⟨unrecognized_length opcodeMap_valid, fun _ => stepWith_unknownOpcode⟩

/-- A fetch sees three words, or as many as memory has left. -/
theorem State.length_fetchWords (s : State) : s.fetchWords.length = min 3 (256 - s.pc.toNat) := by
  have := s.pc.isLt
  rw [s.fetchWords_eq]
  split_ifs <;> simp only [List.length_cons, List.length_nil] <;> omega

/-- Settles O9: the words that follow `pc` inside memory are one fewer than the first operand that is missing. -/
theorem operandFetchPastTopFaults : Obligations.OperandFetchPastTopFaults := by
  intro s m k hrun hop hk hkm htop hin
  obtain ⟨ws, hw⟩ : ∃ ws, s.fetchWords = s.memRead s.pc :: ws := ⟨_, s.fetchWords_eq⟩
  have hlen : 1 + ws.length = k := by
    have hfetched := s.length_fetchWords
    have := m.operandCount_le
    rw [hw, List.length_cons] at hfetched
    omega
  have hd : decodeWith opcodeMap s.fetchWords = .refused (.missingWord k) := by
    rw [hw, hop, ← hlen]
    exact decodeWith_missingWord opcodeMap_valid (by omega)
  exact ⟨_, stepWith_of_refused hrun hd, s.faulted_faultsCleanly _ _⟩

end Sys2Proof.Machine
end

section
/-! PROOFS. Register operand bytes of 8 to 255 (`30_encoding.md` R93, `60_exceptions.md` R196), and where the next `pc`
comes from (`30_encoding.md` R96 to R98). -/

namespace Sys2Proof.Machine

variable {s t : State} {b : Byte}

/-! ### The first bad register byte -/

/-- The first of some register operand bytes that names no register, if any. -/
def firstBadRegister (bs : List Byte) : Option Byte := bs.find? fun r => decide (8 ≤ r.toNat)

theorem firstBadRegister_cons_of_ge {a : Byte} (h : 8 ≤ a.toNat) (bs : List Byte) :
    firstBadRegister (a :: bs) = some a :=
  List.find?_cons_of_pos (by simpa using h)

theorem firstBadRegister_cons_of_lt {a : Byte} (h : a.toNat < 8) (bs : List Byte) :
    firstBadRegister (a :: bs) = firstBadRegister bs :=
  List.find?_cons_of_neg (by simpa using h)

theorem withReg_badRegister {a : Byte} {k : Reg → Res} (h : firstBadRegister [a] = some b) :
    withReg a s k = .next (s.faulted .badRegister b.toNat) := by
  rcases Nat.lt_or_ge a.toNat 8 with hlt | hge
  · rw [firstBadRegister_cons_of_lt hlt] at h
    cases h
  · rw [firstBadRegister_cons_of_ge hge] at h
    cases h
    exact withReg_of_ge s _ k hge

theorem withRegs_badRegister {a c : Byte} {k : Reg → Reg → Res} (h : firstBadRegister [a, c] = some b) :
    withRegs a c s k = .next (s.faulted .badRegister b.toNat) := by
  rcases Nat.lt_or_ge a.toNat 8 with hlt | hge
  · rw [firstBadRegister_cons_of_lt hlt] at h
    rw [withRegs, withReg_of_eq s a ⟨a.toNat, hlt⟩ _ rfl]
    exact withReg_badRegister h
  · rw [firstBadRegister_cons_of_ge hge] at h
    cases h
    exact withRegs_of_ge_left s _ c k hge

/-- Every instruction checks its register operands first, in order. -/
theorem exec_badRegister {i : Instr} (h : firstBadRegister i.registerOperands = some b) :
    exec i s = .next (s.faulted .badRegister b.toNat) := by
  cases i with
  | ldi a imm => exact withReg_badRegister h
  | prn a => exact withReg_badRegister h
  | add a c => exact withRegs_badRegister h
  | mul a c => exact withRegs_badRegister h
  | and a c => exact withRegs_badRegister h
  | or a c => exact withRegs_badRegister h
  | xor a c => exact withRegs_badRegister h
  | not a => exact withReg_badRegister h
  | shl a c => exact withRegs_badRegister h
  | shr a c => exact withRegs_badRegister h
  | push a => exact withReg_badRegister h
  | pop a => exact withReg_badRegister h
  | call a => exact withReg_badRegister h
  | ret => cases h
  | cmp a c => exact withRegs_badRegister h
  | jmp a => exact withReg_badRegister h
  | jeq a => exact withReg_badRegister h
  | jne a => exact withReg_badRegister h
  | hlt => cases h

/-- An instruction is ill-formed exactly when one of its register operand bytes is bad. -/
theorem wf_eq_false_iff (i : Instr) : i.wf = false ↔ ∃ b, firstBadRegister i.registerOperands = some b := by
  simp [← Option.isSome_iff_exists, firstBadRegister, Instr.wf, isRegister]

/-- Settles O23, from the register checks that every instruction begins with. -/
theorem badRegisterFaults : Obligations.BadRegisterFaults :=
  ⟨fun _ s _ h => ⟨_, exec_badRegister h, s.faulted_faultsCleanly _ _⟩, wf_eq_false_iff⟩

/-! ### The next program counter -/

theorem State.faulted_taken {u : State} (hpc : u.pc = s.pc) (c : Cause) (n : Nat) : FaultTaken s (u.faulted c n) c n :=
  ⟨rfl, hpc ▸ rfl, hpc⟩

/-- An instruction that advances takes the SEQ source or, where the advance faults, the HOLD source, whatever its effect
did besides `pc`. -/
theorem advance_nextPc {i : Instr} {u : State} (h : u.advance i.length = .next t) (hpc : u.pc = s.pc)
    (hi : jumpOperand i s = none ∧ i ≠ .ret) :
    (t.pc.toNat = s.pc.toNat + i.length ∧ jumpOperand i s = none ∧ i ≠ .ret) ∨ ∃ c n, FaultTaken s t c n := by
  rcases State.advance_next h with ⟨hle, rfl⟩ | ⟨-, rfl⟩
  · exact .inl ⟨hpc ▸ u.toNat_seqPc _ hle, hi⟩
  · exact .inr ⟨_, _, State.faulted_taken hpc _ _⟩

theorem resultOperand_sequential {i : Instr} {a : Byte} (hi : resultOperand i = some a) (s : State) :
    jumpOperand i s = none ∧ i ≠ .ret := by
  cases i <;> cases hi <;> exact ⟨rfl, nofun⟩

/-- Settles O48, along the ways an instruction can end. -/
theorem nextPcComesFromFourSources : Obligations.NextPcComesFromFourSources := by
  intro i s t h
  cases exec_next h with
  | badRegister | overflow | callTop | haltTop => exact .inr (.inr (.inr ⟨_, _, State.faulted_taken rfl _ _⟩))
  | result _ a r v _ hi _ ha => exact .imp_right (.inr ∘ .inr) (advance_nextPc ha rfl (resultOperand_sequential hi s))
  | emit a v _ ha => exact .imp_right (.inr ∘ .inr) (advance_nextPc ha rfl ⟨rfl, nofun⟩)
  | compare a b p q _ ha => exact .imp_right (.inr ∘ .inr) (advance_nextPc ha rfl ⟨rfl, nofun⟩)
  | push a v _ _ ha => exact .imp_right (.inr ∘ .inr) (advance_nextPc ha rfl ⟨rfl, nofun⟩)
  | pop a r _ _ ha => exact .imp_right (.inr ∘ .inr) (advance_nextPc ha rfl ⟨rfl, nofun⟩)
  | fallThrough _ a _ hi hj ha =>
    have hi : i.length = 2 ∧ i ≠ .ret := by rcases hi with rfl | rfl <;> exact ⟨rfl, nofun⟩
    exact .imp_right (.inr ∘ .inr) (advance_nextPc (hi.1 ▸ ha) rfl ⟨hj, hi.2⟩)
  | halt hle => exact .inl ⟨s.toNat_seqPc 1 hle, rfl, nofun⟩
  | jump _ a r _ hj hr => exact .inr (.inl ⟨a, r, hj, hr, rfl⟩)
  | call a r v hr _ => exact .inr (.inl ⟨a, r, rfl, hr, rfl⟩)
  | ret => exact .inr (.inr (.inl ⟨rfl, rfl⟩))

end Sys2Proof.Machine
end

section
/-! PROOFS. LDI and PRN (`40_load_output.md` R110, R111). First what the instructions' rules share: the fetch faults of
an opcode whose operands lie above 255 (`30_encoding.md` R92), the checked register operand (R93), and the advance after
an effect (R97). -/

namespace Sys2Proof.Machine

variable {s t u : State}

/-! ### What the instructions' rules share -/

theorem HasWords.memRead_pc {opc : Byte} {ws : List Byte} (h : HasWords s (opc :: ws)) : s.memRead s.pc = opc :=
  (h.2 0 (Nat.succ_pos _)).2

/-- The core's own map, in the statements' terms (`30_encoding.md` R94). -/
theorem step_of_encode {i : Instr} (h : HasWords s (encode i)) : step s = exec i s :=
  stepRunsTheInstructionAtPc.2 s i h

/-- O9 for an opcode given as a word: operand `k` is the first one above 255. -/
theorem step_operandPastTop {m : Mnemonic} {k : Nat} (h : HasWords s [opcodeMap m]) (hk : 1 ≤ k ∧ k ≤ m.operandCount)
    (hin : s.pc.toNat + (k - 1) ≤ 255) (htop : 255 < s.pc.toNat + k) :
    ∃ t, step s = .next t ∧ FaultsCleanly s t .addressOutOfRange (s.pc.toNat + k) :=
  operandFetchPastTopFaults s m k h.1 h.memRead_pc hk.1 hk.2 htop hin

/-- O23 for an instruction that lies at `pc`. -/
theorem step_badRegister {i : Instr} {b : Byte} (h : HasWords s (encode i))
    (hb : firstBadRegister i.registerOperands = some b) :
    ∃ t, step s = .next t ∧ FaultsCleanly s t .badRegister b.toNat :=
  ⟨_, (step_of_encode h).trans (exec_badRegister hb), s.faulted_faultsCleanly _ _⟩

/-- The rule of a two-word instruction follows from what it does with a good register (`60_exceptions.md` R198). -/
theorem oneRegisterRule_of_exec {m : Mnemonic} {mk : Byte → Instr} {effect : Reg → State → State → Prop}
    (hcount : m.operandCount = 1) (hencode : ∀ a, encode (mk a) = [opcodeMap m, a])
    (hregs : ∀ a, (mk a).registerOperands = [a])
    (hexec : ∀ (s : State) (a : Byte) (ra : Reg), a.toNat = ra.val → ∃ t, exec (mk a) s = .next t ∧ effect ra s t) :
    OneRegisterRule (opcodeMap m) effect := by
  refine ⟨fun s h htop => ?_, fun s a h ha => ?_, fun s a ra h ha => ?_⟩
  · exact step_operandPastTop h ⟨Nat.le_refl 1, hcount.ge⟩ (Nat.le_of_lt_succ s.pc.isLt) htop
  · exact step_badRegister (hencode a ▸ h) (hregs a ▸ firstBadRegister_cons_of_ge ha [])
  · exact step_of_encode (hencode a ▸ h) ▸ hexec s a ra ha

/-- An effect that leaves `pc`, the run state and the fault record leaves the advance's meaning. -/
theorem Advances.of_effect {len : Nat} (h : Advances len u t) (hpc : u.pc = s.pc) (hrun : KeepsRun s u) :
    Advances len s t := by
  obtain ⟨hle, hgt⟩ := h
  rw [hpc] at hle hgt
  refine ⟨fun hp => ?_, fun hp => ?_⟩
  · obtain ⟨ht, hr, hf⟩ := hle hp
    exact ⟨ht, hr.trans hrun.1, hf.trans hrun.2⟩
  · obtain ⟨hr, hf, ht⟩ := hgt hp
    exact ⟨hr, hpc ▸ hf, ht.trans hpc⟩

/-- One register written, then the advance. -/
theorem State.setReg_advance_spec (s : State) (r : Reg) (v : Byte) (len : Nat) :
    ∃ t, (s.setReg r v).advance len = .next t ∧ t.reg r = v ∧ OnlyRegs [r] s t ∧ Advances len s t := by
  obtain ⟨t, e, ha, ho⟩ := (s.setReg r v).advance_spec len
  have hreg : ∀ q, t.reg q = if q = r then v else s.reg q := fun q =>
    (ho.regs q List.not_mem_nil).trans (s.setReg_reg r q v)
  refine ⟨t, e, (hreg r).trans (if_pos rfl), ⟨fun q hq => ?_, ho.mem, ho.flags, ho.pem, ho.out⟩,
    ha.of_effect rfl ⟨rfl, rfl⟩⟩
  exact (hreg q).trans (if_neg fun e => hq (List.mem_singleton.mpr e))

/-! ### LDI -/

/-- LDI of a good register writes the immediate and advances by 3 (`40_load_output.md` R110). -/
theorem exec_ldi (s : State) {a : Byte} (imm : Byte) {ra : Reg} (ha : a.toNat = ra.val) :
    ∃ t, exec (.ldi a imm) s = .next t ∧ t.reg ra = imm ∧ OnlyRegs [ra] s t ∧ Advances 3 s t := by
  rw [exec, execLdi, withReg_of_eq s a ra _ ha]
  exact s.setReg_advance_spec ra imm 3

/-- Settles O25: the two fetch faults, the register check, and the instruction on a good register. -/
theorem ldiStepRule : Obligations.LdiStepRule := by
  refine ⟨fun s h htop => ?_, fun s h hin htop => ?_, fun s a imm h ha => ?_, fun s a imm ra h ha => ?_⟩
  · exact step_operandPastTop (m := .ldi) h (by decide) (Nat.le_of_lt_succ s.pc.isLt) htop
  · exact step_operandPastTop (m := .ldi) h (by decide) hin htop
  · exact step_badRegister (i := .ldi a imm) h (firstBadRegister_cons_of_ge ha [])
  · exact step_of_encode (i := .ldi a imm) h ▸ exec_ldi s imm ha

/-- Settles O14: below the top the advance succeeds. -/
theorem ldiCompletes : Obligations.LdiCompletes := by
  intro s a imm ra ha hp
  obtain ⟨t, e, hreg, ho, hadv⟩ := exec_ldi s imm ha
  exact ⟨t, e, hreg, ho, hadv.1 hp⟩

/-! ### PRN -/

/-- PRN of a good register emits its value and advances by 2 (`40_load_output.md` R111). -/
theorem exec_prn (s : State) {a : Byte} {ra : Reg} (ha : a.toNat = ra.val) :
    ∃ t, exec (.prn a) s = .next t ∧ EmitResult (s.reg ra) s t ∧ Advances 2 s t := by
  rw [exec, execPrn, withReg_of_eq s a ra _ ha]
  obtain ⟨t, e, hadv, ho⟩ := (s.emit (s.reg ra)).advance_spec 2
  exact ⟨t, e, ⟨ho.out, ho.regs, ho.mem, ho.flags, ho.pem⟩, hadv.of_effect rfl ⟨rfl, rfl⟩⟩

/-- Settles O26, as a two-word instruction with one register operand. -/
theorem prnStepRule : Obligations.PrnStepRule :=
  oneRegisterRule_of_exec (m := .prn) (mk := .prn) rfl (fun _ => rfl) (fun _ => rfl) fun s _ _ => exec_prn s

/-- Settles O15: below the top the advance succeeds. -/
theorem prnCompletes : Obligations.PrnCompletes := by
  intro s a ra ha hp
  obtain ⟨t, e, hemit, hadv⟩ := exec_prn s ha
  exact ⟨t, e, hemit, hadv.1 hp⟩

end Sys2Proof.Machine
end

section
/-! PROOFS. The ALU (`41_alu.md`): its functions on integers (R121), then the instructions using it (R127 to R135). -/

namespace Sys2Proof.Machine

/-! ### The ALU's functions -/

section
variable (p q : Byte)

theorem toNat_aluAdd : (aluAdd p q).toNat = (p.toNat + q.toNat) % 256 := BitVec.toNat_add p q

theorem toNat_aluMul : (aluMul p q).toNat = p.toNat * q.toNat % 256 := BitVec.toNat_mul p q

theorem toNat_aluAnd : (aluAnd p q).toNat = p.toNat &&& q.toNat := BitVec.toNat_and p q

theorem toNat_aluOr : (aluOr p q).toNat = p.toNat ||| q.toNat := BitVec.toNat_or p q

theorem toNat_aluXor : (aluXor p q).toNat = p.toNat ^^^ q.toNat := BitVec.toNat_xor p q

/-- The complement takes no borrow, as no byte is above 255. -/
theorem toNat_aluComplement : (aluComplement p).toNat = 255 - p.toNat :=
  BitVec.toNat_sub_of_le (Nat.le_of_lt_succ p.isLt)

theorem aluComplement_eq_xor : aluComplement p = p ^^^ 0xFF :=
  (BitVec.allOnes_sub_eq_not p).trans BitVec.xor_allOnes.symm

/-- The count is the whole second value (`41_alu.md` R122). -/
theorem toNat_aluShl : (aluShl p q).toNat = shlNat p.toNat q.toNat := by
  unfold aluShl shlNat
  split_ifs with h
  · exact congrArg BitVec.toNat (BitVec.shiftLeft_eq_zero h)
  · rw [BitVec.toNat_shiftLeft, Nat.shiftLeft_eq]

/-- The count is the whole second value (`41_alu.md` R122). -/
theorem toNat_aluShr : (aluShr p q).toNat = shrNat p.toNat q.toNat := by
  unfold aluShr shrNat
  split_ifs with h
  · exact congrArg BitVec.toNat (BitVec.ushiftRight_eq_zero h)
  · rw [BitVec.toNat_ushiftRight, Nat.shiftRight_eq_div_pow]

end

/-- Settles O54, function by function. -/
theorem aluFunctions : Obligations.AluFunctions := fun p q =>
  ⟨toNat_aluAdd p q, toNat_aluMul p q, toNat_aluAnd p q, toNat_aluOr p q, toNat_aluXor p q,
    toNat_aluComplement p, aluComplement_eq_xor p, toNat_aluShl p q, toNat_aluShr p q⟩

/-! ### NOT -/

/-- NOT of a good register complements it and advances by 2 (`41_alu.md` R133). -/
theorem exec_not (s : State) {a : Byte} {ra : Reg} (ha : a.toNat = ra.val) :
    ∃ t, exec (.not a) s = .next t ∧ (t.reg ra).toNat = 255 - (s.reg ra).toNat ∧ OnlyRegs [ra] s t ∧
      Advances 2 s t := by
  rw [exec, execNot, withReg_of_eq s a ra _ ha]
  obtain ⟨t, e, hreg, ho, hadv⟩ := s.setReg_advance_spec ra (aluComplement (s.reg ra)) 2
  exact ⟨t, e, hreg ▸ toNat_aluComplement _, ho, hadv⟩

/-- Settles O28, as a two-word instruction with one register operand. -/
theorem notStepRule : Obligations.NotStepRule :=
  oneRegisterRule_of_exec (m := .not) (mk := .not) rfl (fun _ => rfl) (fun _ => rfl) fun s _ _ => exec_not s

/-- Settles O13: below the top the advance succeeds. -/
theorem notCompletes : Obligations.NotCompletes := by
  intro s a ra ha hp
  obtain ⟨t, e, hreg, ho, hadv⟩ := exec_not s ha
  exact ⟨t, e, hreg, ho, hadv.1 hp⟩

/-! ### The two-register instructions -/

/-- The rule of a three-word instruction with two register operands follows from what it does with good registers
(`60_exceptions.md` R198). -/
theorem twoRegisterRule_of_exec {m : Mnemonic} {mk : Byte → Byte → Instr} {effect : Reg → Reg → State → State → Prop}
    (hcount : m.operandCount = 2) (hencode : ∀ a b, encode (mk a b) = [opcodeMap m, a, b])
    (hregs : ∀ a b, (mk a b).registerOperands = [a, b])
    (hexec : ∀ (s : State) (a b : Byte) (ra rb : Reg), a.toNat = ra.val → b.toNat = rb.val →
      ∃ t, exec (mk a b) s = .next t ∧ effect ra rb s t) :
    TwoRegisterRule (opcodeMap m) effect := by
  refine ⟨fun s h htop => ?_, fun s h hin htop => ?_, fun s a b h ha => ?_, fun s a b h ha hb => ?_,
    fun s a b ra rb h ha hb => ?_⟩
  · exact step_operandPastTop h ⟨Nat.le_refl 1, by omega⟩ (Nat.le_of_lt_succ s.pc.isLt) htop
  · exact step_operandPastTop h ⟨by decide, hcount.ge⟩ hin htop
  · exact step_badRegister (hencode a b ▸ h) (hregs a b ▸ firstBadRegister_cons_of_ge ha [b])
  · have hbad : firstBadRegister [a, b] = some b :=
      (firstBadRegister_cons_of_lt ha [b]).trans (firstBadRegister_cons_of_ge hb [])
    exact step_badRegister (hencode a b ▸ h) (hregs a b ▸ hbad)
  · exact step_of_encode (hencode a b ▸ h) ▸ hexec s a b ra rb ha hb

/-- Two good registers: the handler of `mk` writes `f` of them to `regA` and advances by 3 (`41_alu.md` R127). -/
def AluPairMeaning (mk : Byte → Byte → Instr) (f : Nat → Nat → Nat) : Prop :=
  ∀ (s : State) (a b : Byte) (ra rb : Reg), a.toNat = ra.val → b.toNat = rb.val →
    ∃ t, exec (mk a b) s = .next t ∧ PairResult f ra rb s t ∧ Advances 3 s t

section
variable {mk : Byte → Byte → Instr} {f : Nat → Nat → Nat}

/-- The shared ALU shape means its function, as that function is on integers. -/
theorem aluPairMeaning_of_aluPair {g : Byte → Byte → Byte} (hmk : ∀ a b s, exec (mk a b) s = aluPair g a b s)
    (hg : ∀ p q : Byte, (g p q).toNat = f p.toNat q.toNat) : AluPairMeaning mk f := by
  intro s a b ra rb ha hb
  rw [hmk, aluPair, withRegs_of_eq s a b ra rb _ ha hb]
  obtain ⟨t, e, hreg, ho, hadv⟩ := s.setReg_advance_spec ra (g (s.reg ra) (s.reg rb)) 3
  exact ⟨t, e, ⟨hreg ▸ hg _ _, ho⟩, hadv⟩

/-- Below the top the advance succeeds. -/
theorem AluPairMeaning.completes (h : AluPairMeaning mk f) : AluPairCompletes mk f := by
  intro s a b ra rb ha hb hp
  obtain ⟨t, e, hres, hadv⟩ := h s a b ra rb ha hb
  exact ⟨t, e, hres, hadv.1 hp⟩

theorem AluPairMeaning.rule {m : Mnemonic} (h : AluPairMeaning mk f) (hcount : m.operandCount = 2)
    (hencode : ∀ a b, encode (mk a b) = [opcodeMap m, a, b]) (hregs : ∀ a b, (mk a b).registerOperands = [a, b]) :
    AluPairRule (opcodeMap m) f :=
  twoRegisterRule_of_exec hcount hencode hregs h

end

theorem exec_add : AluPairMeaning .add (fun p q => (p + q) % 256) :=
  aluPairMeaning_of_aluPair (fun _ _ _ => rfl) toNat_aluAdd

theorem exec_mul : AluPairMeaning .mul (fun p q => p * q % 256) :=
  aluPairMeaning_of_aluPair (fun _ _ _ => rfl) toNat_aluMul

theorem exec_and : AluPairMeaning .and (fun p q => p &&& q) :=
  aluPairMeaning_of_aluPair (fun _ _ _ => rfl) toNat_aluAnd

theorem exec_or : AluPairMeaning .or (fun p q => p ||| q) :=
  aluPairMeaning_of_aluPair (fun _ _ _ => rfl) toNat_aluOr

theorem exec_xor : AluPairMeaning .xor (fun p q => p ^^^ q) :=
  aluPairMeaning_of_aluPair (fun _ _ _ => rfl) toNat_aluXor

theorem exec_shl : AluPairMeaning .shl shlNat := aluPairMeaning_of_aluPair (fun _ _ _ => rfl) toNat_aluShl

theorem exec_shr : AluPairMeaning .shr shrNat := aluPairMeaning_of_aluPair (fun _ _ _ => rfl) toNat_aluShr

/-- Settles O12: each instruction's meaning, where the advance succeeds. -/
theorem aluPairsComplete : Obligations.AluPairsComplete :=
  ⟨exec_add.completes, exec_mul.completes, exec_and.completes, exec_or.completes, exec_xor.completes,
    exec_shl.completes, exec_shr.completes⟩

/-- Settles O27, as three-word instructions with two register operands. -/
theorem aluPairStepRules : Obligations.AluPairStepRules :=
  ⟨exec_add.rule (m := .add) rfl (fun _ _ => rfl) (fun _ _ => rfl),
    exec_mul.rule (m := .mul) rfl (fun _ _ => rfl) (fun _ _ => rfl),
    exec_and.rule (m := .and) rfl (fun _ _ => rfl) (fun _ _ => rfl),
    exec_or.rule (m := .or) rfl (fun _ _ => rfl) (fun _ _ => rfl),
    exec_xor.rule (m := .xor) rfl (fun _ _ => rfl) (fun _ _ => rfl),
    exec_shl.rule (m := .shl) rfl (fun _ _ => rfl) (fun _ _ => rfl),
    exec_shr.rule (m := .shr) rfl (fun _ _ => rfl) (fun _ _ => rfl)⟩

end Sys2Proof.Machine
end

section
/-! PROOFS. The protected cells over a run (`42_stack.md` R149, `20_memory.md` R74): the guard keeps every push above
the program end marker and below 255, and no step moves the marker. -/

namespace Sys2Proof.Machine

/-- The program end marker keeps its value, and so do the program's cells, the cell at the marker, and cell 255. -/
def KeepsProtected (s t : State) : Prop :=
  t.pem = s.pem ∧ ∀ a : Byte, a.toNat ≤ s.pem.toNat ∨ a = 255 → t.memRead a = s.memRead a

theorem KeepsProtected.refl (s : State) : KeepsProtected s s := ⟨rfl, fun _ _ => rfl⟩

theorem KeepsProtected.trans {s u t : State} (hsu : KeepsProtected s u) (hut : KeepsProtected u t) :
    KeepsProtected s t := by
  obtain ⟨hpem, hmem⟩ := hsu
  obtain ⟨hpem', hmem'⟩ := hut
  exact ⟨hpem'.trans hpem, fun a ha => (hmem' a (hpem ▸ ha)).trans (hmem a ha)⟩

/-- No effect writes a protected cell: where a push writes lies strictly between the marker and 255. -/
theorem Effect.memRead_protected {s u : State} {i : Instr} (h : Effect s i u) {a : Byte}
    (ha : a.toNat ≤ s.pem.toNat ∨ a = 255) : u.memRead a = s.memRead a := by
  by_contra hne
  obtain ⟨-, -, hlo, hhi⟩ := h.memRead hne
  rcases ha with hle | rfl
  · exact Nat.not_lt_of_le hle hlo
  · exact absurd hhi (by decide)

theorem step_keepsProtected {s t : State} (h : step s = .next t) : KeepsProtected s t := by
  refine ⟨step_pem h, fun a ha => ?_⟩
  rcases step_effect h with ho | ⟨i, u, -, hu, ho⟩
  · exact ho.mem a
  · exact (ho.mem a).trans (hu.memRead_protected ha)

/-- Settles O42, by induction on the number of steps. -/
theorem programRegionIsNeverWritten : Obligations.ProgramRegionIsNeverWritten :=
  fun _ _ _ => run_induction KeepsProtected.refl fun _ _ _ h => (step_keepsProtected h).trans

end Sys2Proof.Machine
end

section
/-! PROOFS. PUSH, POP, CALL and RET (`42_stack.md` R141 to R149): what a push and a pop leave, each instruction on a
good register, and the pairs PUSH-POP and CALL-RET. -/

namespace Sys2Proof.Machine

variable {s t u : State} {v a : Byte} {ra : Reg}

theorem KeepsRun.trans (hsu : KeepsRun s u) (hut : KeepsRun u t) : KeepsRun s t :=
  ⟨hut.1.trans hsu.1, hut.2.trans hsu.2⟩

theorem OnlyRegs.sp (ho : OnlyRegs [] u t) : t.sp = u.sp := ho.regs _ List.not_mem_nil

/-! ### The guarded push -/

theorem State.pushThen_of_full (h : s.sp.toNat ≤ s.pem.toNat + 1) (v : Byte) (k : State → Res) :
    s.pushThen v k = .next (s.faulted .stackOverflow s.sp.toNat) := by
  rcases s.pushThen_cases v k with ⟨-, e⟩ | ⟨hroom, -⟩
  · exact e
  · omega

theorem State.pushThen_of_room (h : s.pem.toNat + 1 < s.sp.toNat) (v : Byte) (k : State → Res) :
    s.pushThen v k = k (s.pushed v) := by
  rcases s.pushThen_cases v k with ⟨hfull, -⟩ | ⟨-, e⟩
  · omega
  · exact e

/-- Above the guard the decrement does not wrap. -/
theorem State.toNat_sp_sub_one (h : s.pem.toNat + 1 < s.sp.toNat) : (s.sp - 1).toNat = s.sp.toNat - 1 :=
  BitVec.toNat_sub_of_le (Nat.le_of_lt (Nat.lt_of_le_of_lt (Nat.le_add_left 1 _) h))

theorem State.pushed_pushResult (h : s.pem.toNat + 1 < s.sp.toNat) (v : Byte) : PushResult v s (s.pushed v) where
  sp := by rw [s.pushed_sp, State.toNat_sp_sub_one h]
  cell := by rw [s.pushed_memRead, if_pos rfl]
  mem := fun b hb => by rw [s.pushed_memRead, if_neg hb]
  regs := fun r hr => (s.pushed_reg v r).trans (if_neg fun h7 => hr (List.mem_singleton.mpr h7))
  flags := rfl
  pem := rfl
  out := rfl

/-- How the instruction ends does not touch what the push left. -/
theorem PushResult.of_onlyRegs (h : PushResult v s u) (ho : OnlyRegs [] u t) : PushResult v s t where
  sp := ho.sp ▸ h.sp
  cell := (ho.mem _).trans h.cell
  mem := fun b hb => (ho.mem b).trans (h.mem b hb)
  regs := fun r hr => (ho.regs r List.not_mem_nil).trans (h.regs r hr)
  flags := ho.flags.trans h.flags
  pem := ho.pem.trans h.pem
  out := ho.out.trans h.out

/-- After a push the cell at SP holds the pushed word (`42_stack.md` R149). -/
theorem PushResult.top (h : PushResult v s t) (hs : s.pem.toNat + 1 < s.sp.toNat) : t.memRead t.sp = v := by
  have hsp : t.sp = s.sp - 1 := BitVec.eq_of_toNat_eq (h.sp.trans (State.toNat_sp_sub_one hs).symm)
  rw [hsp, h.cell]

/-- An increment after a push brings SP back (`42_stack.md` R149). -/
theorem PushResult.sp_restored (h : PushResult v s t) (hs : s.pem.toNat + 1 < s.sp.toNat)
    (hu : u.sp.toNat = (t.sp.toNat + 1) % 256) : u.sp = s.sp := by
  have hlt := s.sp.isLt
  have hsp := h.sp
  apply BitVec.eq_of_toNat_eq
  omega

/-! ### PUSH -/

/-- PUSH of a good register at the stack's limit (`42_stack.md` R142). -/
theorem exec_push_of_full (ha : a.toNat = ra.val) (h : s.sp.toNat ≤ s.pem.toNat + 1) :
    exec (.push a) s = .next (s.faulted .stackOverflow s.sp.toNat) := by
  rw [exec, execPush, withReg_of_eq s a ra _ ha, State.pushThen_of_full h]

/-- PUSH of a good register above the guard pushes its value and advances by 2 (`42_stack.md` R145). -/
theorem exec_push (ha : a.toNat = ra.val) (h : s.pem.toNat + 1 < s.sp.toNat) :
    ∃ t, exec (.push a) s = .next t ∧ PushResult (s.reg ra) s t ∧ Advances 2 s t := by
  rw [exec, execPush, withReg_of_eq s a ra _ ha, State.pushThen_of_room h]
  obtain ⟨t, e, hadv, ho⟩ := (s.pushed (s.reg ra)).advance_spec 2
  exact ⟨t, e, (State.pushed_pushResult h _).of_onlyRegs ho, hadv.of_effect rfl ⟨rfl, rfl⟩⟩

/-- Settles O18: below the top the advance succeeds. -/
theorem pushCompletes : Obligations.PushCompletes := by
  intro s a ra ha hs hp
  obtain ⟨t, e, hpush, hadv⟩ := exec_push ha hs
  exact ⟨t, e, hpush, hadv.1 hp⟩

/-- Settles O29, as a two-word instruction with one register operand: the guard decides between fault and push. -/
theorem pushStepRule : Obligations.PushStepRule := by
  refine oneRegisterRule_of_exec (m := .push) (mk := .push) rfl (fun _ => rfl) (fun _ => rfl) fun s a ra ha => ?_
  rcases Nat.lt_or_ge (s.pem.toNat + 1) s.sp.toNat with hroom | hfull
  · obtain ⟨t, e, hpush, hadv⟩ := exec_push ha hroom
    exact ⟨t, e, fun hle => by omega, fun _ => ⟨hpush, hadv⟩⟩
  · exact ⟨_, exec_push_of_full ha hfull, fun _ => s.faulted_faultsCleanly _ _, fun hlt => by omega⟩

/-! ### POP -/

/-- The increment wraps (decision D10). -/
theorem State.toNat_popped_sp (s : State) : s.popped.sp.toNat = (s.sp.toNat + 1) % 256 := by
  rw [s.popped_sp, BitVec.toNat_add]
  rfl

theorem State.popped_keepsRegs (s : State) : KeepsRegs [7] s s.popped :=
  fun r hr => (s.popped_reg r).trans (if_neg fun h7 => hr (List.mem_singleton.mpr h7))

theorem State.popped_setReg_popResult (s : State) (ra : Reg) : PopResult ra s (s.popped.setReg ra s.top) where
  dest := State.setReg_reg_self _ ra _
  sp := fun hne => by
    have hsp : (s.popped.setReg ra s.top).sp = s.popped.sp := State.setReg_reg_ne _ ra 7 _ hne.symm
    rw [hsp, s.toNat_popped_sp]
  only := by
    refine ⟨fun r hr => ?_, fun _ => rfl, rfl, rfl, rfl⟩
    exact (State.setReg_reg_ne _ ra r _ (List.ne_of_not_mem_cons hr)).trans
      (s.popped_keepsRegs r (List.not_mem_of_not_mem_cons hr))

/-- How the instruction ends does not touch what the pop left. -/
theorem PopResult.of_onlyRegs (h : PopResult ra s u) (ho : OnlyRegs [] u t) : PopResult ra s t where
  dest := (ho.regs ra List.not_mem_nil).trans h.dest
  sp := fun hne => ho.sp ▸ h.sp hne
  only := ⟨fun r hr => (ho.regs r List.not_mem_nil).trans (h.only.regs r hr),
    fun b => (ho.mem b).trans (h.only.mem b), ho.flags.trans h.only.flags, ho.pem.trans h.only.pem,
    ho.out.trans h.only.out⟩

/-- POP into a good register, whatever SP is, pops and advances by 2 (`42_stack.md` R146). -/
theorem exec_pop (s : State) (ha : a.toNat = ra.val) :
    ∃ t, exec (.pop a) s = .next t ∧ PopResult ra s t ∧ Advances 2 s t := by
  rw [exec, execPop, withReg_of_eq s a ra _ ha]
  obtain ⟨t, e, hadv, ho⟩ := (s.popped.setReg ra s.top).advance_spec 2
  exact ⟨t, e, (s.popped_setReg_popResult ra).of_onlyRegs ho, hadv.of_effect rfl ⟨rfl, rfl⟩⟩

/-- Settles O19: below the top the advance succeeds. -/
theorem popCompletes : Obligations.PopCompletes := by
  intro s a ra ha hp
  obtain ⟨t, e, hpop, hadv⟩ := exec_pop s ha
  exact ⟨t, e, hpop, hadv.1 hp⟩

/-- Settles O30, as a two-word instruction with one register operand. -/
theorem popStepRule : Obligations.PopStepRule :=
  oneRegisterRule_of_exec (m := .pop) (mk := .pop) rfl (fun _ => rfl) (fun _ => rfl) fun s _ _ => exec_pop s

/-! ### CALL -/

/-- CALL through a good register with a return address above 255 (decision D5). -/
theorem exec_call_of_top (ha : a.toNat = ra.val) (hp : 255 < s.pc.toNat + 2) :
    exec (.call a) s = .next (s.faulted .addressOutOfRange (s.pc.toNat + 2)) := by
  rw [exec, execCall, withReg_of_eq s a ra _ ha, if_neg (Nat.not_le_of_lt hp), State.raise]

/-- CALL through a good register at the stack's limit (decision D7). -/
theorem exec_call_of_full (ha : a.toNat = ra.val) (hp : s.pc.toNat + 2 ≤ 255) (h : s.sp.toNat ≤ s.pem.toNat + 1) :
    exec (.call a) s = .next (s.faulted .stackOverflow s.sp.toNat) := by
  rw [exec, execCall, withReg_of_eq s a ra _ ha, if_pos hp, State.pushThen_of_full h]

/-- CALL through a good register above the guard pushes the return address and jumps to the register's value from
before the push (`42_stack.md` R147). -/
theorem exec_call (ha : a.toNat = ra.val) (hp : s.pc.toNat + 2 ≤ 255) (h : s.pem.toNat + 1 < s.sp.toNat) :
    ∃ t, exec (.call a) s = .next t ∧ PushResult (BitVec.ofNat 8 (s.pc.toNat + 2)) s t ∧
      JumpsTo (s.reg ra) s t := by
  rw [exec, execCall, withReg_of_eq s a ra _ ha, if_pos hp, State.pushThen_of_room h]
  exact ⟨_, rfl, (State.pushed_pushResult h _).of_onlyRegs (State.setPc_onlyRegs _ _ _), rfl, rfl, rfl⟩

/-- Settles O20: the return address fits in a cell. -/
theorem callCompletes : Obligations.CallCompletes := by
  intro s a ra ha hs hp
  obtain ⟨t, e, hpush, hjump⟩ := exec_call ha hp hs
  exact ⟨t, _, e, s.toNat_seqPc 2 hp, hpush, hjump⟩

/-- Settles O24, from PUSH and CALL at the stack's limit. -/
theorem stackOverflowFaults : Obligations.StackOverflowFaults := by
  intro s a ra ha hle
  have hfull : s.sp.toNat ≤ s.pem.toNat + 1 := by omega
  exact ⟨⟨_, exec_push_of_full ha hfull, s.faulted_faultsCleanly _ _⟩,
    fun hp => ⟨_, exec_call_of_full ha hp hfull, s.faulted_faultsCleanly _ _⟩⟩

/-- Settles O31, as a two-word instruction with one register operand: the return address's range is checked before the
guard. -/
theorem callStepRule : Obligations.CallStepRule := by
  refine oneRegisterRule_of_exec (m := .call) (mk := .call) rfl (fun _ => rfl) (fun _ => rfl) fun s a ra ha => ?_
  rcases Nat.lt_or_ge 255 (s.pc.toNat + 2) with htop | hp
  · exact ⟨_, exec_call_of_top ha htop, fun _ => s.faulted_faultsCleanly _ _, fun hp => by omega,
      fun hp => by omega⟩
  · rcases Nat.lt_or_ge (s.pem.toNat + 1) s.sp.toNat with hroom | hfull
    · obtain ⟨t, e, hpush, hjump⟩ := exec_call ha hp hroom
      exact ⟨t, e, fun htop => by omega, fun _ hle => by omega, fun _ _ => ⟨hpush, hjump⟩⟩
    · exact ⟨_, exec_call_of_full ha hp hfull, fun htop => by omega, fun _ _ => s.faulted_faultsCleanly _ _,
        fun _ hlt => by omega⟩

/-! ### RET -/

/-- Settles O21: RET has no check to fail. -/
theorem retCompletes : Obligations.RetCompletes :=
  fun s => ⟨s.popped.setPc s.top, rfl, ⟨rfl, rfl, rfl⟩, s.toNat_popped_sp,
    ⟨s.popped_keepsRegs, fun _ => rfl, rfl, rfl, rfl⟩⟩

/-- Settles O32: a one-word instruction has no operand fetch to fail either. -/
theorem retStepRule : Obligations.RetStepRule :=
  fun s h => step_of_encode (i := .ret) h ▸ retCompletes s

/-! ### Pairs of instructions -/

/-- Settles O51: the pop reads the cell the push wrote. -/
theorem pushThenPop : Obligations.PushThenPop := by
  intro s a b ra rb ha hb _ hs hp
  obtain ⟨t, et, hpush, hadv⟩ := exec_push ha hs
  obtain ⟨hpc, hrun⟩ := hadv.1 (by omega)
  obtain ⟨u, eu, hpop, hadv'⟩ := exec_pop t hb
  obtain ⟨hpc', hrun'⟩ := hadv'.1 (by omega)
  refine ⟨t, u, et, eu, hpop.dest.trans (hpush.top hs), fun hne => hpush.sp_restored hs (hpop.sp hne),
    fun r hr => ?_, hrun.trans hrun', by omega⟩
  exact (hpop.only.regs r hr).trans (hpush.regs r fun h7 => hr (List.mem_cons_of_mem rb h7))

/-- Settles O52: RET pops the return address that CALL pushed, which brings SP back. -/
theorem callThenRet : Obligations.CallThenRet := by
  intro s a ra ha hs hp
  obtain ⟨t, et, hpush, hpc, hrun⟩ := exec_call ha hp hs
  obtain ⟨u, eu, ⟨hpc', hrun'⟩, hsp, honly⟩ := retCompletes t
  refine ⟨t, u, et, hpc, eu, ?_, fun r _ => ?_, fun b hb => (honly.mem b).trans (hpush.mem b hb), hrun.trans hrun'⟩
  · rw [hpc', hpush.top hs, s.toNat_seqPc 2 hp]
  · by_cases h7 : r = 7
    · exact h7 ▸ hpush.sp_restored hs hsp
    · exact (honly.regs r (by simpa using h7)).trans (hpush.regs r (by simpa using h7))

end Sys2Proof.Machine
end

section
/-! PROOFS. CMP, JMP, JEQ and JNE (`43_compare_branch.md` R160 to R165): the flags a compare leaves, each instruction on
good registers, and a conditional jump after a compare. -/

namespace Sys2Proof.Machine

variable {s t u : State} {a b p q : Byte} {ra rb : Reg}

/-! ### The flags of a compare -/

theorem compareFlags_of_eq (h : p.toNat = q.toNat) : compareFlags p q = { e := true, l := false, g := false } :=
  if_pos (BitVec.eq_of_toNat_eq h)

theorem compareFlags_of_lt (h : p.toNat < q.toNat) : compareFlags p q = { e := false, l := true, g := false } := by
  have hne : p ≠ q := fun e => h.ne (congrArg BitVec.toNat e)
  rw [compareFlags, if_neg hne, if_pos h]

theorem compareFlags_of_gt (h : q.toNat < p.toNat) : compareFlags p q = { e := false, l := false, g := true } := by
  have hne : p ≠ q := fun e => h.ne (congrArg BitVec.toNat e.symm)
  rw [compareFlags, if_neg hne, if_neg h.not_gt]

theorem State.setFlags_compareResult (s : State) (p q : Byte) :
    CompareResult p q s (s.setFlags (compareFlags p q)) where
  equal := fun h => by simp [compareFlags_of_eq h]
  less := fun h => by simp [compareFlags_of_lt h]
  greater := fun h => by simp [compareFlags_of_gt h]
  regs := fun _ _ => rfl
  mem := fun _ => rfl
  pem := rfl
  out := rfl

/-- How the instruction ends does not touch what the compare left. -/
theorem CompareResult.of_onlyRegs (h : CompareResult p q s u) (ho : OnlyRegs [] u t) : CompareResult p q s t where
  equal := ho.flags ▸ h.equal
  less := ho.flags ▸ h.less
  greater := ho.flags ▸ h.greater
  regs := fun r hr => (ho.regs r hr).trans (h.regs r hr)
  mem := fun c => (ho.mem c).trans (h.mem c)
  pem := ho.pem.trans h.pem
  out := ho.out.trans h.out

theorem CompareResult.e_of_eq (h : CompareResult p q s t) (hpq : p = q) : t.flags.e = true :=
  (h.equal (congrArg BitVec.toNat hpq)).1

theorem CompareResult.e_of_ne (h : CompareResult p q s t) (hpq : p ≠ q) : t.flags.e = false := by
  rcases Nat.lt_or_gt_of_ne (mt BitVec.eq_of_toNat_eq hpq) with hlt | hgt
  · exact (h.less hlt).1
  · exact (h.greater hgt).1

/-! ### CMP -/

/-- CMP of good registers sets the flag of the unsigned comparison and advances by 3 (`43_compare_branch.md` R160). -/
theorem exec_cmp (s : State) (ha : a.toNat = ra.val) (hb : b.toNat = rb.val) :
    ∃ t, exec (.cmp a b) s = .next t ∧ CompareResult (s.reg ra) (s.reg rb) s t ∧ Advances 3 s t := by
  rw [exec, execCmp, withRegs_of_eq s a b ra rb _ ha hb]
  obtain ⟨t, e, hadv, ho⟩ := (s.setFlags (compareFlags (s.reg ra) (s.reg rb))).advance_spec 3
  exact ⟨t, e, (s.setFlags_compareResult _ _).of_onlyRegs ho, hadv.of_effect rfl ⟨rfl, rfl⟩⟩

/-- Settles O33, as a three-word instruction with two register operands. -/
theorem cmpStepRule : Obligations.CmpStepRule :=
  twoRegisterRule_of_exec (m := .cmp) (mk := .cmp) rfl (fun _ _ => rfl) (fun _ _ => rfl) fun s _ _ _ _ => exec_cmp s

/-- Settles O16: below the top the advance succeeds. -/
theorem cmpCompletes : Obligations.CmpCompletes := by
  intro s a b ra rb ha hb hp
  obtain ⟨t, e, hcmp, hadv⟩ := exec_cmp s ha hb
  exact ⟨t, e, hcmp, hadv.1 hp⟩

/-! ### JMP, JEQ and JNE -/

/-- JMP through a good register jumps to its value, and does not advance (`43_compare_branch.md` R161). -/
theorem exec_jmp (s : State) (ha : a.toNat = ra.val) :
    ∃ t, exec (.jmp a) s = .next t ∧ JumpsTo (s.reg ra) s t ∧ OnlyRegs [] s t := by
  rw [exec, execJmp, withReg_of_eq s a ra _ ha]
  exact ⟨_, rfl, ⟨rfl, rfl, rfl⟩, s.setPc_onlyRegs _ _⟩

/-- A conditional jump through a good register: the jump, or the advance by 2 (`30_encoding.md` R98). -/
theorem jumpIf_spec (c : Bool) (s : State) (ha : a.toNat = ra.val) :
    ∃ t, jumpIf c a s = .next t ∧
      (c = true → JumpsTo (s.reg ra) s t) ∧ (c = false → Advances 2 s t) ∧ OnlyRegs [] s t := by
  rw [jumpIf, withReg_of_eq s a ra _ ha]
  cases c with
  | true => exact ⟨_, rfl, fun _ => ⟨rfl, rfl, rfl⟩, nofun, s.setPc_onlyRegs _ _⟩
  | false =>
    obtain ⟨t, e, hadv, ho⟩ := s.advance_spec 2
    exact ⟨t, e, nofun, fun _ => hadv, ho⟩

/-- JEQ through a good register jumps on `E = 1` (`43_compare_branch.md` R162). -/
theorem exec_jeq (s : State) (ha : a.toNat = ra.val) :
    ∃ t, exec (.jeq a) s = .next t ∧ (s.flags.e = true → JumpsTo (s.reg ra) s t) ∧
      (s.flags.e = false → Advances 2 s t) ∧ OnlyRegs [] s t :=
  jumpIf_spec s.flags.e s ha

/-- JNE through a good register jumps on `E = 0` (`43_compare_branch.md` R163). -/
theorem exec_jne (s : State) (ha : a.toNat = ra.val) :
    ∃ t, exec (.jne a) s = .next t ∧ (s.flags.e = false → JumpsTo (s.reg ra) s t) ∧
      (s.flags.e = true → Advances 2 s t) ∧ OnlyRegs [] s t := by
  obtain ⟨t, e, hjump, hadv, ho⟩ := jumpIf_spec (!s.flags.e) s ha
  exact ⟨t, e, fun he => hjump (by rw [he]; rfl), fun he => hadv (by rw [he]; rfl), ho⟩

/-- Settles O34, as a two-word instruction with one register operand. -/
theorem jmpStepRule : Obligations.JmpStepRule :=
  oneRegisterRule_of_exec (m := .jmp) (mk := .jmp) rfl (fun _ => rfl) (fun _ => rfl) fun s _ _ => exec_jmp s

/-- Settles O35, as two-word instructions with one register operand, which is checked whether the jump is taken or
not. -/
theorem conditionalJumpStepRules : Obligations.ConditionalJumpStepRules :=
  ⟨oneRegisterRule_of_exec (m := .jeq) (mk := .jeq) rfl (fun _ => rfl) (fun _ => rfl) fun s _ _ => exec_jeq s,
    oneRegisterRule_of_exec (m := .jne) (mk := .jne) rfl (fun _ => rfl) (fun _ => rfl) fun s _ _ => exec_jne s⟩

/-- Settles O17: `E` decides between the jump and the advance, which succeeds below the top. -/
theorem jumpsComplete : Obligations.JumpsComplete := by
  intro s a ra ha
  obtain ⟨t, et, hjump, hadv, ho⟩ := exec_jeq s ha
  obtain ⟨u, eu, hjump', hadv', ho'⟩ := exec_jne s ha
  refine ⟨exec_jmp s ha, fun he => ⟨t, et, hjump he, ho⟩, fun he => ⟨u, eu, hjump' he, ho'⟩, fun he hp => ?_,
    fun he hp => ?_⟩
  · obtain ⟨hpc, hrun⟩ := (hadv he).1 hp
    exact ⟨t, et, hpc, hrun, ho⟩
  · obtain ⟨hpc, hrun⟩ := (hadv' he).1 hp
    exact ⟨u, eu, hpc, hrun, ho'⟩

/-! ### A conditional jump after a compare -/

/-- Settles O53: the compare leaves equality in `E`, which both jumps read. -/
theorem compareThenJump : Obligations.CompareThenJump := by
  intro s t a b c ra rb rc ha hb hc hp h
  obtain ⟨t', e, hcmp, hadv⟩ := exec_cmp s ha hb
  obtain rfl : t' = t := Host.Outcome.next.inj (e.symm.trans h)
  obtain ⟨hpc, -⟩ := hadv.1 (by omega)
  obtain ⟨u, eu, hjeq, hseq, -⟩ := exec_jeq t' hc
  obtain ⟨v, ev, hjne, hsne, -⟩ := exec_jne t' hc
  have htarget : t'.reg rc = s.reg rc := hcmp.regs rc List.not_mem_nil
  have hnext {w : State} (hw : Advances 2 t' w) : w.pc.toNat = s.pc.toNat + 5 := by
    rw [(hw.1 (by omega)).1, hpc]
  refine ⟨u, v, eu, ev, fun heq => ?_, fun hne => ?_⟩
  · have he := hcmp.e_of_eq heq
    exact ⟨(hjeq he).1.trans htarget, hnext (hsne he)⟩
  · have he := hcmp.e_of_ne hne
    exact ⟨hnext (hseq he), (hjne he).1.trans htarget⟩

end Sys2Proof.Machine
end

section
/-! PROOFS. HLT (`44_halt.md` R180) below the top and at address 255, and what lies at 255 under the invariant. -/

namespace Sys2Proof.Machine

variable {s : State}

/-! ### HLT -/

theorem State.setPc_halt_haltResult (h : s.pc.toNat + 1 ≤ 255) :
    HaltResult s (s.setPc (BitVec.ofNat 8 (s.pc.toNat + 1))).halt where
  pc := s.toNat_seqPc 1 h
  run := rfl
  fault := rfl
  only := ⟨fun _ _ => rfl, fun _ => rfl, rfl, rfl, rfl⟩

/-- HLT below the top address: the advance, then the halt. -/
theorem exec_hlt_of_le (h : s.pc.toNat + 1 ≤ 255) :
    exec .hlt s = .next (s.setPc (BitVec.ofNat 8 (s.pc.toNat + 1))).halt := by
  rw [exec, execHlt, s.advanceThen_of_le 1 _ h]

/-- Settles O22: below the top the advance succeeds, and the halt follows it. -/
theorem hltCompletes : Obligations.HltCompletes :=
  fun _ h => ⟨_, exec_hlt_of_le h, State.setPc_halt_haltResult h⟩

/-- HLT at the top address: the advance faults before the halt (decision D11). -/
theorem exec_hlt_of_top (h : 255 < s.pc.toNat + 1) : exec .hlt s = .next (s.faulted .addressOutOfRange 256) := by
  have htop : s.pc.toNat + 1 = 256 := Nat.le_antisymm s.pc.isLt h
  rw [exec, execHlt, s.advanceThen_of_gt 1 _ h, htop]

/-- Settles O36, as a one-word instruction: the advance decides between the halt and the fault. -/
theorem hltStepRule : Obligations.HltStepRule := by
  intro s hw
  rw [step_of_encode (i := .hlt) hw]
  exact ⟨hltCompletes s, fun h => ⟨_, exec_hlt_of_top h, s.faulted_faultsCleanly _ _⟩⟩

/-! ### The top address -/

/-- The byte that unwritten memory reads as is no opcode (`30_encoding.md` R84, R88). -/
theorem opcodeMap_ne_zero (m : Mnemonic) : opcodeMap m ≠ 0 := by cases m <;> decide

/-- Settles O50: under the invariant cell 255 holds 0, an unknown opcode. -/
theorem topAddressIsNotExecutable : Obligations.TopAddressIsNotExecutable := by
  intro s hinv hrun hpc
  have hzero : s.memRead s.pc = 0 := hpc ▸ hinv.topCell
  have hstep := unknownOpcodeIsFatal.2 s hrun fun m => hzero ▸ opcodeMap_ne_zero m
  rwa [hzero] at hstep

end Sys2Proof.Machine
end

section
/-! PROOFS. Faults are precise (`60_exceptions.md` R195, R197, R198): what decodes at `pc` lies inside memory, so the one
address above 255 that an instruction can form is 256. -/

namespace Sys2Proof.Machine

variable {s t u : State} {i : Instr}

/-! ### What decodes lies inside memory -/

/-- Word `k` of a fetch is the cell `pc + k` (`30_encoding.md` R92). -/
theorem State.getElem?_fetchWords {k : Nat} {b : Byte} (h : s.fetchWords[k]? = some b) :
    s.pc.toNat + k ≤ 255 ∧ s.mem.read (s.pc.toNat + k) = b := by
  obtain ⟨hk, -⟩ := List.getElem?_eq_some_iff.mp h
  rw [s.length_fetchWords] at hk
  have hin : s.pc.toNat + k ≤ 255 := by omega
  refine ⟨hin, ?_⟩
  rw [s.fetchWords_eq] at h
  match k, hk with
  | 0, _ => exact Option.some.inj h
  | 1, _ =>
    rw [if_pos hin] at h
    exact Option.some.inj h
  | 2, _ =>
    rw [if_pos (by omega), if_pos hin] at h
    exact Option.some.inj h
  | k + 3, hk => omega

/-- The converse of O6's fetch: what decodes at `pc` is spelled out there. -/
theorem hasWords_of_decode {rest : List Byte} (hrun : s.run = .running) (hd : decode s.fetchWords = .ok i rest) :
    HasWords s (encode i) := by
  have hfetched : s.fetchWords = encode i ++ rest := (decodeWith_ok hd).1
  refine ⟨hrun, fun k hk => State.getElem?_fetchWords ?_⟩
  rw [hfetched, List.getElem?_append_left hk, List.getElem?_eq_getElem hk]

/-- An instruction that lies inside memory ends at address 255 or below. -/
theorem HasWords.pc_add_length_le (h : HasWords s (encode i)) : s.pc.toNat + i.length ≤ 256 := by
  have hlast : i.mnemonic.operandCount < (encode i).length := by
    rw [encode, encodeWith, List.length_cons, i.operands_length]
    exact Nat.lt_succ_self _
  exact Nat.succ_le_succ (h.2 _ hlast).1

/-! ### Every fault is precise -/

/-- A fault was entered at the instruction's own address, before the instruction had any effect unless it is the advance
of an instruction that ends at address 255 (`60_exceptions.md` R195, R197): the conclusion of O49. -/
def FaultsPrecisely (s t : State) : Prop :=
  ∃ c n, FaultTaken s t c n ∧ (c ≠ .addressOutOfRange → OnlyRegs [] s t) ∧
    (c = .addressOutOfRange → n = 256 ∧
      (OnlyRegs [] s t ∨
        ∃ i, HasWords s (encode i) ∧ s.pc.toNat + i.length = 256 ∧ jumpOperand i s = none ∧ i ≠ .ret))

/-- Fault entry before any effect is precise, if the address it names, when its cause is one, is 256. -/
theorem State.faulted_faultsPrecisely (s : State) {c : Cause} {n : Nat} (hn : c = .addressOutOfRange → n = 256) :
    FaultsPrecisely s (s.faulted c n) :=
  ⟨c, n, State.faulted_taken rfl c n, fun _ => s.faulted_onlyRegs [] c n,
    fun hc => ⟨hn hc, .inl (s.faulted_onlyRegs [] c n)⟩⟩

/-- An advance can fault only from an instruction that ends at address 255, whatever its effect did besides `pc` and the
run state (`30_encoding.md` R97). -/
theorem advance_faultsPrecisely (hw : HasWords s (encode i)) (ha : u.advance i.length = .next t) (hpc : u.pc = s.pc)
    (hrun : u.run = s.run) (hi : jumpOperand i s = none ∧ i ≠ .ret) (hf : t.run = .faulted) : FaultsPrecisely s t := by
  have hle := hw.pc_add_length_le
  rcases State.advance_next ha with ⟨-, rfl⟩ | ⟨hgt, rfl⟩
  · have hrunning : u.run = .running := hrun.trans hw.1
    cases hrunning.symm.trans hf
  · rw [hpc] at hgt ⊢
    have htop : s.pc.toNat + i.length = 256 := Nat.le_antisymm hle hgt
    exact ⟨_, _, State.faulted_taken hpc _ _, fun hc => absurd rfl hc, fun _ => ⟨htop, .inr ⟨i, hw, htop, hi⟩⟩⟩

/-- Along the ways an instruction can end: a jump, a return and a halt leave the core unfaulted, and the rest fault
before any effect or in the advance. -/
theorem Ends.faultsPrecisely (he : Ends s i t) (hw : HasWords s (encode i)) (hf : t.run = .faulted) :
    FaultsPrecisely s t := by
  have hle := hw.pc_add_length_le
  cases he with
  | badRegister | overflow => exact s.faulted_faultsPrecisely nofun
  | callTop _ hgt => exact s.faulted_faultsPrecisely fun _ => Nat.le_antisymm hle hgt
  | haltTop hgt => exact s.faulted_faultsPrecisely fun _ => Nat.le_antisymm hle hgt
  | result _ a r v _ hi _ ha => exact advance_faultsPrecisely hw ha rfl rfl (resultOperand_sequential hi s) hf
  | emit a v _ ha => exact advance_faultsPrecisely hw ha rfl rfl ⟨rfl, nofun⟩ hf
  | compare a b p q _ ha => exact advance_faultsPrecisely hw ha rfl rfl ⟨rfl, nofun⟩ hf
  | push a v _ _ ha => exact advance_faultsPrecisely hw ha rfl rfl ⟨rfl, nofun⟩ hf
  | pop a r _ _ ha => exact advance_faultsPrecisely hw ha rfl rfl ⟨rfl, nofun⟩ hf
  | fallThrough _ a _ hi hj ha =>
    have hi : i.length = 2 ∧ i ≠ .ret := by rcases hi with rfl | rfl <;> exact ⟨rfl, nofun⟩
    exact advance_faultsPrecisely hw (hi.1 ▸ ha) rfl rfl ⟨hj, hi.2⟩ hf
  | call | ret | jump => cases hw.1.symm.trans hf
  | halt => cases hf

/-- Settles O49: a fetch fault names 256 or an unknown byte, and an instruction that runs lies inside memory. -/
theorem faultsArePrecise : Obligations.FaultsArePrecise := by
  intro s t h hf
  obtain ⟨hrun, he⟩ := step_next h
  cases he with
  | unknownOpcode => exact s.faulted_faultsPrecisely nofun
  | fetchTop => exact s.faulted_faultsPrecisely fun _ => rfl
  | runs i rest _ hd hx => exact (exec_next hx).faultsPrecisely (hasWords_of_decode hrun hd) hf

end Sys2Proof.Machine
end

section
/-! PROOFS. The read-only ports: what the debug port shows (`60_exceptions.md` R206, R207, `10_state.md` R38) and what the
status port tells (R191, R192). -/

namespace Sys2Proof.Machine

/-! ### The debug port -/

/-- `FL = 0b00000LGE` as a number: the three bits never carry out of the byte. -/
theorem Flags.toNat_toByte (f : Flags) : f.toByte.toNat = 4 * f.l.toNat + 2 * f.g.toNat + f.e.toNat := by
  have hl := f.l.toNat_le
  have hg := f.g.toNat_le
  have he := f.e.toNat_le
  rw [Flags.toByte, BitVec.toNat_ofNat]
  omega

@[simp] theorem State.trace_cells (n : Nat) (s : State) :
    (s.trace n).cells = s.mem.cellsFrom s.pc.toNat (min n (256 - s.pc.toNat)) := rfl

/-- Settles O55: a trace copies `pc` and the registers, and takes as many cells from `pc` as memory has left. -/
theorem debugPortReads : Obligations.DebugPortReads := by
  intro n s
  refine ⟨rfl, rfl, s.flags.toNat_toByte, by simp, fun k hk => ⟨?_, by simp⟩⟩
  rw [State.trace_cells, Memory.length_cellsFrom] at hk
  omega

theorem State.debugPort_memory_length (s : State) : s.debugPort.memory.length = 256 :=
  s.mem.length_cellsFrom 0 256

theorem State.getElem?_debugPort_memory (s : State) (a : Byte) : s.debugPort.memory[a.toNat]? = some (s.memRead a) := by
  have hlt : a.toNat < (s.mem.cellsFrom 0 256).length := by simpa using a.isLt
  have hcell : (s.mem.cellsFrom 0 256)[a.toNat]? = some (s.mem.read (0 + a.toNat)) := by
    rw [List.getElem?_eq_getElem hlt, Memory.getElem_cellsFrom]
  rwa [Nat.zero_add] at hcell

/-- Canonical memories with the same 256 cells on the debug port are the same list. -/
theorem mem_eq_of_debugPort {s t : State} (hs : s.mem.wf) (ht : t.mem.wf) (h : s.debugPort = t.debugPort) :
    s.mem = t.mem := by
  refine Memory.eq_of_read _ _ hs ht fun a ha => ?_
  have hread : s.memRead (BitVec.ofNat 8 a) = t.memRead (BitVec.ofNat 8 a) := by
    apply Option.some.inj
    rw [← s.getElem?_debugPort_memory, ← t.getElem?_debugPort_memory, h]
  rwa [State.memRead, State.memRead, BitVec.toNat_ofNat, Nat.mod_eq_of_lt (show a < 2 ^ 8 from ha)] at hread

/-- The debug port determines a state whose memory is canonical: memory by its cells, the flags by their byte, and every
other field as it stands there. -/
theorem eq_of_debugPort {s t : State} (hs : s.mem.wf) (ht : t.mem.wf) (h : s.debugPort = t.debugPort) : s = t := by
  have hmem := mem_eq_of_debugPort hs ht h
  have hflags : s.flags = t.flags := Flags.toByte_injective (congrArg (·.trace.fl) h)
  have hregs : s.regs = t.regs := congrArg (·.trace.regs) h
  have hpc : s.pc = t.pc := congrArg (·.trace.pc) h
  have hpem : s.pem = t.pem := congrArg (·.pem) h
  have hrun : s.run = t.run := congrArg (·.run) h
  have hfault : s.fault = t.fault := congrArg (·.fault) h
  have hout : s.out = t.out := congrArg (·.out) h
  cases s
  cases t
  exact State.mk.injEq .. ▸ ⟨hmem, hregs, hpc, hflags, hpem, hrun, hfault, hout⟩

/-- Settles O57, field by field, and by the canonical form of memory. -/
theorem debugPortShowsAllState : Obligations.DebugPortShowsAllState :=
  ⟨fun s => ⟨rfl, s.debugPort_memory_length, s.getElem?_debugPort_memory, rfl, rfl, rfl, rfl⟩,
    fun _ _ => eq_of_debugPort⟩

/-! ### The status port -/

section
variable {s : State}

theorem State.statusPort_of_running (h : s.run = .running) :
    s.statusPort = { run := .running, code := none, record := none } := by
  simp only [State.statusPort, h]

theorem State.statusPort_of_halted (h : s.run = .halted) :
    s.statusPort = { run := .halted, code := some 0, record := none } := by
  simp only [State.statusPort, h]

theorem State.statusPort_of_faulted {f : FaultRecord} (h : s.run = .faulted) (hf : s.fault = some f) :
    s.statusPort = { run := .faulted, code := some f.cause.code, record := some f } := by
  simp only [State.statusPort, h, hf, Option.map_some]

end

theorem State.statusPort_run (s : State) : s.statusPort.run = s.run := by
  cases h : s.run <;> simp only [State.statusPort, h]

/-- The codes of `60_exceptions.md` R191. -/
theorem Cause.code_bounds (c : Cause) : 1 ≤ c.code ∧ c.code ≤ 4 := by cases c <;> decide

/-- Settles O56: by the invariant a FAULTED core has its record, whose cause gives the code. -/
theorem statusPortTellsHowTheRunEnded : Obligations.StatusPortTellsHowTheRunEnded := by
  refine fun s hinv => ⟨s.statusPort_run, fun h => ?_, fun h => ?_, fun h => ?_⟩
  · rw [State.statusPort_of_running h]
    exact ⟨rfl, rfl⟩
  · rw [State.statusPort_of_halted h]
    exact ⟨rfl, rfl⟩
  · obtain ⟨f, hf⟩ := Option.isSome_iff_exists.mp (hinv.faulted.mp h)
    rw [State.statusPort_of_faulted h hf]
    exact ⟨f, rfl, hf, rfl, f.cause.code_bounds⟩

end Sys2Proof.Machine
end

section
/-! PROOFS. What loading a program establishes (`70_reset_and_hazards.md` R224 to R228). -/

namespace Sys2Proof.Machine

/-- Memory that holds a program from cell 0 upward and nothing else. -/
theorem Memory.read_writeAll_nil (p : List Byte) (a : Nat) :
    (Memory.writeAll [] Config.loadBase p).read a = p.getD a unlistedByte := by
  rw [Memory.read_writeAll, Config.loadBase, Nat.zero_add, Nat.sub_zero, Memory.read_nil]
  split
  · rfl
  · next hout => rw [List.getD_eq_default _ _ (by omega)]

/-- The state a load of `p` answers if `p` fits below 0xF4 (`70_reset_and_hazards.md` R224). -/
def State.loaded (p : List Byte) : State :=
  { State.reset with mem := Memory.writeAll [] Config.loadBase p, pem := BitVec.ofNat 8 p.length }

theorem State.load_of_le {p : List Byte} (h : p.length ≤ 244) : State.load p = .ok (State.loaded p) := if_pos h

theorem State.load_of_lt {p : List Byte} (h : 244 < p.length) : State.load p = .error .capacityExceeded :=
  if_neg (Nat.not_le_of_lt h)

theorem State.loaded_memRead (p : List Byte) (a : Byte) : (State.loaded p).memRead a = p.getD a.toNat 0 :=
  Memory.read_writeAll_nil p a.toNat

section
variable {p : List Byte} (h : p.length ≤ 244)
include h

theorem State.loaded_pem : (State.loaded p).pem.toNat = p.length :=
  Nat.mod_eq_of_lt (by omega)

/-- A program that fits ends below the stack, so it leaves the cell at address 255 alone. -/
theorem State.loaded_topCell : (State.loaded p).memRead 255 = 0 := by
  rw [State.loaded_memRead]
  exact List.getD_eq_default _ _ (Nat.le_trans h (by decide))

/-- Loading changes memory and PEM alone; the rest is sound as at reset. -/
theorem State.loaded_sound : (State.loaded p).Sound where
  memory := Memory.wf_writeAll p [] Config.loadBase Memory.wf_nil (by rw [Config.loadBase, Config.memSize]; omega)
  pem := (State.loaded_pem h).trans_le h
  flags := State.reset_sound.flags
  topCell := State.loaded_topCell h
  run := State.reset_sound.run
  fault := State.reset_sound.fault

end

/-- Settles O39: memory is the written program over empty memory, and every field but memory and PEM is reset's. -/
theorem loadPlacesTheProgram : Obligations.LoadPlacesTheProgram :=
  ⟨fun p h => ⟨State.loaded p, State.load_of_le h, State.loaded_memRead p, State.loaded_pem h, rfl, rfl, rfl, rfl, rfl,
    rfl, (State.loaded_sound h).inv⟩,
   fun _ => State.load_of_lt⟩

end Sys2Proof.Machine
end
